-- ==== Sys2Proof/Word.lean ====
section
/-! DEFINITION. The two sizes of bit vector the bus carries: a 32-bit word and a byte (rules R58, R61). -/

namespace Sys2Proof

/-- One 32-bit bus word: the only size a host access may have (R58), a limb of an operand (R62), a command word (R80). -/
abbrev Word := BitVec 32

/-- One byte lane of a bus word (R61). -/
abbrev Byte := BitVec 8

end Sys2Proof
end

