-- ==== Sys2Proof/Syntax.lean ====
section
/-! DEFINITION. The commands (R3, R85) and the command word as its ten bit fields (R81). -/

namespace Sys2Proof

/-- An operand register number: a 3-bit field, all eight values valid, value i naming Ri (R82). -/
abbrev RegIdx := Fin 8

/-- The six commands of the opcode table, each with the operand fields it uses (R85, R92). -/
inductive Instr where
  /-- `modexp rd, rs1, rs2, rs3`: rd <- rs1^rs2 mod rs3 (R102). -/
  | modexp  (rd rs1 rs2 rs3 : RegIdx)
  /-- `montmul rd, rs1, rs2, rs3`: rd <- rs1·rs2·R^-1 mod rs3 (R108). -/
  | montmul (rd rs1 rs2 rs3 : RegIdx)
  /-- `barrett rd, rs1, rs2, rs3`: rd <- (rs1·2^OPW + rs2) mod rs3 (R114). -/
  | barrett (rd rs1 rs2 rs3 : RegIdx)
  /-- `fermat rd, rs1`: Fermat test of rs1, the deciding residue to rd (R133). -/
  | fermat  (rd rs1 : RegIdx)
  /-- `egcd rs1, rs2`: G, CX, CY <- extended gcd (R153). -/
  | egcd    (rs1 rs2 : RegIdx)
  /-- `modinv rd, rs1, rs2`: rd <- rs1^-1 mod rs2, or 0 (R157). -/
  | modinv  (rd rs1 rs2 : RegIdx)
  deriving DecidableEq, Repr

/-- A command word cut into the fields of R81, the reserved ones included, least significant first.
Any 32-bit word is one such record; which of them are commands is `CmdFields.legal` (WellFormed.lean). -/
structure CmdFields where
  /-- OP, bits 5:0. -/
  op   : Fin 64
  /-- Reserved bits 7:6. -/
  res6 : Fin 4
  /-- RD, bits 10:8. -/
  rd   : RegIdx
  /-- Reserved bit 11. -/
  res11 : Fin 2
  /-- RS1, bits 14:12. -/
  rs1  : RegIdx
  /-- Reserved bit 15. -/
  res15 : Fin 2
  /-- RS2, bits 18:16. -/
  rs2  : RegIdx
  /-- Reserved bit 19. -/
  res19 : Fin 2
  /-- RS3, bits 22:20. -/
  rs3  : RegIdx
  /-- Reserved bits 31:23. -/
  res23 : Fin 512
  deriving DecidableEq, Repr

/-- The fields of a command's word: its opcode (R85), its operands, and 0 in every reserved and every unused field
(R83, R86). -/
def Instr.fields : Instr → CmdFields
  | .modexp rd rs1 rs2 rs3  => ⟨1, 0, rd, 0, rs1, 0, rs2, 0, rs3, 0⟩
  | .montmul rd rs1 rs2 rs3 => ⟨2, 0, rd, 0, rs1, 0, rs2, 0, rs3, 0⟩
  | .barrett rd rs1 rs2 rs3 => ⟨3, 0, rd, 0, rs1, 0, rs2, 0, rs3, 0⟩
  | .fermat rd rs1          => ⟨4, 0, rd, 0, rs1, 0, 0, 0, 0, 0⟩
  | .egcd rs1 rs2           => ⟨5, 0, 0, 0, rs1, 0, rs2, 0, 0, 0⟩
  | .modinv rd rs1 rs2      => ⟨6, 0, rd, 0, rs1, 0, rs2, 0, 0, 0⟩

end Sys2Proof
end

