-- ==== Sys2Proof/WellFormed.lean ====
section
/-! DEFINITION. Which field records are commands (R83, R85, R86, R88, R89). -/

namespace Sys2Proof

namespace CmdFields

/-- Every reserved field is 0 (R83). -/
def reservedZero (f : CmdFields) : Bool :=
  f.res6 == 0 && f.res11 == 0 && f.res15 == 0 && f.res19 == 0 && f.res23 == 0

/-- The opcode is one of 0x01 to 0x06: 0x00 and 0x07 to 0x3F name no command (R85, R89). -/
def opcodeAssigned (f : CmdFields) : Bool :=
  decide (1 ≤ f.op.val) && decide (f.op.val ≤ 6)

/-- The fields that the opcode's command does not use hold 0 (R86, the "must be zero" column of R85). -/
def unusedZero (f : CmdFields) : Bool :=
  match f.op.val with
  | 4 => f.rs2 == 0 && f.rs3 == 0
  | 5 => f.rd == 0 && f.rs3 == 0
  | 6 => f.rs3 == 0
  | _ => true

/-- The record is a command: it fails none of the checks that make a word illegal (R88). -/
def legal (f : CmdFields) : Bool :=
  f.reservedZero && f.opcodeAssigned && f.unusedZero

end CmdFields

/-- A command is well formed when its field record is legal. Every value of `Instr` is: its operands are register numbers
by type, and `Instr.fields` fills the other fields with 0 (Laws/PerInstr.lean, family FieldsLegal). -/
def Instr.WellFormed (i : Instr) : Prop := i.fields.legal = true

end Sys2Proof
end

