-- ==== Sys2Proof/Decode.lean ====
section
/-! DEFINITION. The command decoder, total on every 32-bit word (R91), the encoder beside it (R81), the byte lanes of
a word (R61), and the assembler spelling (R92). -/

namespace Sys2Proof

/-- `v[hi:lo]` as an unsigned number (R14). -/
def field (w : Word) (hi lo : Nat) : Nat := w.toNat / 2 ^ lo % 2 ^ (hi + 1 - lo)

/-- The ten fields of a command word (R81). -/
def fieldsOf (w : Word) : CmdFields where
  op    := Fin.ofNat 64 (field w 5 0)
  res6  := Fin.ofNat 4 (field w 7 6)
  rd    := Fin.ofNat 8 (field w 10 8)
  res11 := Fin.ofNat 2 (field w 11 11)
  rs1   := Fin.ofNat 8 (field w 14 12)
  res15 := Fin.ofNat 2 (field w 15 15)
  rs2   := Fin.ofNat 8 (field w 18 16)
  res19 := Fin.ofNat 2 (field w 19 19)
  rs3   := Fin.ofNat 8 (field w 22 20)
  res23 := Fin.ofNat 512 (field w 31 23)

/-- Why a word is no command. All three are the one error ILLEGAL to the engine (R88, R171). -/
inductive DecodeReject where
  /-- A reserved bit is set (R83). -/
  | reservedBits
  /-- OP is 0x00 or 0x07 to 0x3F (R89). -/
  | undefinedOpcode
  /-- A field the command does not use is not 0 (R86). -/
  | unusedField
  deriving DecidableEq, Repr

/-- The command of a field record, or the reason it is none. -/
def decodeFields (f : CmdFields) : Except DecodeReject Instr :=
  if f.reservedZero then
    match f.op.val with
    | 1 => .ok (.modexp f.rd f.rs1 f.rs2 f.rs3)
    | 2 => .ok (.montmul f.rd f.rs1 f.rs2 f.rs3)
    | 3 => .ok (.barrett f.rd f.rs1 f.rs2 f.rs3)
    | 4 => if f.unusedZero then .ok (.fermat f.rd f.rs1) else .error .unusedField
    | 5 => if f.unusedZero then .ok (.egcd f.rs1 f.rs2) else .error .unusedField
    | 6 => if f.unusedZero then .ok (.modinv f.rd f.rs1 f.rs2) else .error .unusedField
    | _ => .error .undefinedOpcode
  else .error .reservedBits

/-- The decode function of R91, total on every 32-bit word, with the reason in place of `none`. -/
def decode (w : Word) : Except DecodeReject Instr := decodeFields (fieldsOf w)

/-- The word of a field record: every field at its place in R81. -/
def wordOf (f : CmdFields) : Word :=
  BitVec.ofNat 32 (f.op.val + f.res6.val * 2 ^ 6 + f.rd.val * 2 ^ 8 + f.res11.val * 2 ^ 11 + f.rs1.val * 2 ^ 12
    + f.res15.val * 2 ^ 15 + f.rs2.val * 2 ^ 16 + f.res19.val * 2 ^ 19 + f.rs3.val * 2 ^ 20 + f.res23.val * 2 ^ 23)

/-- `word = OP | RD<<8 | RS1<<12 | RS2<<16 | RS3<<20` (R81); an unused field is encoded 0 (R92). -/
def encode (i : Instr) : Word := wordOf i.fields

/-- Byte lane k of a bus word, `word[8k+7 : 8k]`, k = 0 at the lowest address (R61). -/
def byteLane (w : Word) (k : Nat) : Byte := BitVec.ofNat 8 (w.toNat / 2 ^ (8 * k))

/-- The host's question about one row of the opcode table: the command the decoder reads from the word whose low `nbits`
bits are w's and whose other bits are 0. A command is always the one word written to CMD (R80). -/
def decodeTableWord (nbits w : Nat) : Option Instr :=
  match decode (BitVec.ofNat 32 (w % 2 ^ nbits)) with
  | .ok i => some i
  | .error _ => none

/-- Register names `r0` to `r7` (R92). -/
def regName (i : RegIdx) : String :=
  match i with
  | 0 => "r0" | 1 => "r1" | 2 => "r2" | 3 => "r3" | 4 => "r4" | 5 => "r5" | 6 => "r6" | 7 => "r7"

/-- The assembler spelling of a command: operands in field order RD, RS1, RS2, RS3, unused fields omitted (R92). -/
def Instr.spelling : Instr → String
  | .modexp rd rs1 rs2 rs3  =>
      "modexp " ++ regName rd ++ ", " ++ regName rs1 ++ ", " ++ regName rs2 ++ ", " ++ regName rs3
  | .montmul rd rs1 rs2 rs3 =>
      "montmul " ++ regName rd ++ ", " ++ regName rs1 ++ ", " ++ regName rs2 ++ ", " ++ regName rs3
  | .barrett rd rs1 rs2 rs3 =>
      "barrett " ++ regName rd ++ ", " ++ regName rs1 ++ ", " ++ regName rs2 ++ ", " ++ regName rs3
  | .fermat rd rs1          => "fermat " ++ regName rd ++ ", " ++ regName rs1
  | .egcd rs1 rs2           => "egcd " ++ regName rs1 ++ ", " ++ regName rs2
  | .modinv rd rs1 rs2      => "modinv " ++ regName rd ++ ", " ++ regName rs1 ++ ", " ++ regName rs2

end Sys2Proof
end

