-- ==== Sys2Proof/Config.lean ====
section
/-! DEFINITION. The parameters of the engine (R9 to R11) and the one free value of the model (R212). -/

namespace Sys2Proof

/-- The parameters a model takes as arguments: the operand width and the window's bus address. They are no state (R49);
State carries them in a field that no step writes, so that a statement about every state is about every OPW and every BASE.
`IRQ_ROUTE` and `HOST_DEVICE_ORDER` are left open by the spec and have no field (log entries 2 and 5). -/
structure Config where
  /-- `OPW`, the operand width in bits (R9). -/
  opw  : Nat
  /-- `BASE`, the bus address of the register window (R11). -/
  base : Nat
  deriving DecidableEq, Repr

namespace Config

/-- `NL`, the number of 32-bit limbs of an operand register (R10). -/
def nl (c : Config) : Nat := c.opw / 32

/-- `R = 2^OPW`, the Montgomery radix (R10, R107) and the bound of every register value (R12). -/
def radix (c : Config) : Nat := 2 ^ c.opw

/-- What R9 and R11 ask of the parameters. -/
abbrev Valid (c : Config) : Prop :=
  c.opw % 32 = 0 ∧ 32 ≤ c.opw ∧ c.opw ≤ 2048 ∧ c.base % 0x2000 = 0

/-- The reference configuration: OPW = 256 (R9). BASE is the platform's (R11): 0 here, DESIGN CHOICE, log entry 1. -/
def reference : Config := { opw := 256, base := 0 }

/-- The free value of the model: the word that the n-th read of an operand or result window while busy returns
("a fresh **draw**: a free 32-bit input under no law", R212). No body: nothing can prove a value of it. Log entry 3. -/
opaque freeDraw : Nat → Word

end Config

end Sys2Proof
end

