-- ==== Sys2Proof/Machine/State.lean ====
section
/-! DEFINITION. The state: the engine's record (R49), what the bus and the reset input will bring (R8, R66, R200), what the
host has read (R224); the ways a step can stop; the state right after reset (R48). -/

namespace Sys2Proof.Machine

/-- The size of a host access. Only a 32-bit word is legal; "8, 16 or 64 bits, or a burst" are refused (R58). -/
inductive AccessSize where
  | byte
  | half
  | word
  | double
  /-- A burst of so many beats. -/
  | burst (beats : Nat)
  deriving DecidableEq, Repr

/-- A host access reads or writes (R15, R72). -/
inductive AccessKind where
  /-- `MemRead(A, n)`. -/
  | read
  /-- `MemWrite(A, n, v)`. The data of a write that is refused for its size is never looked at. -/
  | write (data : Word)
  deriving DecidableEq, Repr

/-- One host access on the bus. The address is a bus address A, not an offset (R52). -/
structure BusAccess where
  addr : Nat
  size : AccessSize
  kind : AccessKind
  deriving DecidableEq, Repr

/-- What can come next at the engine (R66, R183, R200, R220). The order of a list of them is the one serial order in which host
accesses, the completion step and hardware resets take effect. -/
inductive Arrival where
  /-- A host access arrives at the bus (R66). -/
  | access (a : BusAccess)
  /-- The engine's own step falls here: a command in progress completes; an idle engine does nothing (R44, R220). -/
  | engineTurn
  /-- The platform asserts and releases the reset input, or power comes up (R200). -/
  | hardwareReset
  /-- The host's `WAIT`: "repeat `R32 0x008` until bit 1 (DONE) reads 1" (R93). While a command runs, the engine's turn falls after
  `polls` more reads: a count of any size, which is the fairness of R221. With no command running and DONE = 0 it repeats for ever:
  the hang of R223. Log entry 17. -/
  | waitDone (polls : Nat)
  deriving DecidableEq, Repr

/-- One word the host read from the window: "the values the host read" are part of a run's final state (R224). -/
structure HostRead where
  offset : Nat
  data   : Word
  deriving DecidableEq, Repr

/-- The three result registers (R23). -/
inductive ResultReg where
  | G
  | CX
  | CY
  deriving DecidableEq, Repr

/-- What a word offset of the window names (R53 to R57). -/
inductive Slot where
  | id
  | ctrl
  | status
  | cmd
  /-- Limb j of operand register Ri (R54). -/
  | operand (i : RegIdx) (j : Nat)
  /-- Limb j of a result register (R55). -/
  | result (r : ResultReg) (j : Nat)
  /-- Reads as zero, writes ignored: a reserved offset (R57) or a slot at or above NL (R56). -/
  | reserved
  deriving DecidableEq, Repr

/-- The command errors (R170). -/
inductive ErrCode where
  /-- CMDL decodes to no command (R171). -/
  | illegal
  /-- The modulus is 0, or MODINV with gcd = 1 and b = 0 (R172). -/
  | div0
  /-- MONTMUL's modulus is even (R173). -/
  | even
  /-- A MONTMUL operand is at or above the modulus, or FERMAT's candidate is 0 (R174). -/
  | range
  deriving DecidableEq, Repr

/-- The engine's record, field for field and name for name that of R49. -/
structure Engine where
  /-- R0 to R7, each below 2^OPW (R21). -/
  R       : Vector Nat 8
  /-- The gcd (R23). -/
  G       : Nat
  /-- The magnitude of Bézout coefficient x (R23, R24). -/
  CX      : Nat
  /-- The magnitude of Bézout coefficient y (R23, R24). -/
  CY      : Nat
  /-- CTRL.IE (R27). -/
  IE      : Bool
  /-- STATUS.BUSY: a command is accepted and not complete (R33). -/
  BUSY    : Bool
  /-- STATUS.DONE: the pending completion (R34). -/
  DONE    : Bool
  /-- STATUS.PRIME (R35). -/
  PRIME   : Bool
  /-- STATUS.NOINV (R36). -/
  NOINV   : Bool
  /-- STATUS.XNEG: the sign of x (R37). -/
  XNEG    : Bool
  /-- STATUS.YNEG: the sign of y (R38). -/
  YNEG    : Bool
  /-- STATUS.WERR: a host write was dropped (R39). -/
  WERR    : Bool
  /-- STATUS.ERR (R40). -/
  ERR     : Fin 16
  /-- STATUS.FAILIDX (R41). -/
  FAILIDX : Fin 16
  /-- The last command word accepted, which CMD reads (R30). -/
  CMDL    : Word
  deriving DecidableEq, Repr

/-- The machine: the parameters, which no step writes, the engine, and the environment. -/
structure State where
  /-- OPW and BASE (R9, R11). A parameter, not the spec's state: no step writes it. Log entry 1. -/
  cfg    : Config
  /-- The engine's architectural state (R20, R49). -/
  engine : Engine
  /-- What arrives at the engine, the next first (R66, R220). The MODEL's own field. Log entry 2. -/
  inbox  : List Arrival
  /-- The words the host has read, the latest first (R224). -/
  reads  : List HostRead
  /-- How many draws have been made: the index of the next free value (R212). The MODEL's own field. Log entry 3. -/
  draws  : Nat
  deriving DecidableEq, Repr

/-- Why the machine stops. -/
inductive Fault where
  /-- A host access inside the window that is not one aligned 32-bit word (R58, R59): "A model treats a refused access as a
  fault of the host's step" and it "carries the offset and width" (R60). Raised by Machine/Bus.lean. SAFE: the hardware goes
  on with its state unchanged, the model stops, and no claim is proved past it (R60, R223). -/
  | busError (offset : Nat) (size : AccessSize)
  deriving DecidableEq, Repr

/-- Why the model gives no meaning. -/
inductive Refusal where
  /-- Raised only by an arm of exec that has no meaning yet: there is none. Safe. -/
  | notModelled (mnemonic : String)
  deriving DecidableEq, Repr

/-- The engine after a hardware or a soft reset (R48): every field at the value the spec's table gives it. -/
def Engine.reset : Engine where
  R := Vector.replicate 8 0
  G := 0
  CX := 0
  CY := 0
  IE := false
  BUSY := false
  DONE := false
  PRIME := false
  NOINV := false
  XNEG := false
  YNEG := false
  WERR := false
  ERR := 0
  FAILIDX := 0
  CMDL := 0

/-- The machine right after hardware reset, at the reference parameters, with nothing on the bus (R48, R200). -/
def State.reset : State where
  cfg := Config.reference
  engine := Engine.reset
  inbox := []
  reads := []
  draws := 0

end Sys2Proof.Machine
end

