-- ==== Sys2Proof/Machine/Operands.lean ====
section
/-! DEFINITION. Reading and writing the registers: whole, as the engine does (R82, R84), and one 32-bit limb at a time, as the
host does (R54, R55, R62). -/

namespace Sys2Proof.Machine

/-- `x[i]`, read whole as an unsigned value (R15, R84). -/
def Engine.reg (e : Engine) (i : RegIdx) : Nat := e.R[i.val]

/-- `x[i] <- v` (R15). -/
def Engine.setReg (e : Engine) (i : RegIdx) (v : Nat) : Engine := { e with R := e.R.set i.val v }

/-- A result register, read whole (R23). -/
def Engine.resultReg (e : Engine) : ResultReg → Nat
  | .G  => e.G
  | .CX => e.CX
  | .CY => e.CY

/-- The gcd and the two signed coefficients, each held as magnitude and sign; a zero magnitude has sign 0 (R24). -/
def Engine.setTriple (e : Engine) (g : Nat) (x y : Int) : Engine :=
  { e with G := g, CX := x.natAbs, XNEG := decide (x < 0), CY := y.natAbs, YNEG := decide (y < 0) }

/-- The Bézout coefficient x that CX and XNEG stand for (R24). -/
def Engine.coeffX (e : Engine) : Int := if e.XNEG then -(e.CX : Int) else e.CX

/-- The Bézout coefficient y that CY and YNEG stand for (R24). -/
def Engine.coeffY (e : Engine) : Int := if e.YNEG then -(e.CY : Int) else e.CY

/-- Limb j of a value: `v[32j+31 : 32j]` (R62). -/
def limb (v j : Nat) : Word := BitVec.ofNat 32 (v / 2 ^ (32 * j))

/-- `v[32j+31 : 32j] <- w`, every other limb unchanged (R54). -/
def setLimb (v j : Nat) (w : Word) : Nat :=
  v % 2 ^ (32 * j) + w.toNat * 2 ^ (32 * j) + v / 2 ^ (32 * (j + 1)) * 2 ^ (32 * (j + 1))

end Sys2Proof.Machine
end

