-- ==== Sys2Proof/Machine/Flags.lean ====
section
/-! DEFINITION. The control and status words (R26 to R32, R42), the flag writes of a completion (R43), the host's
acknowledgement (R32) and the interrupt output (R47). -/

namespace Sys2Proof.Machine

/-- The code of an error in STATUS.ERR (R170). -/
def ErrCode.code : ErrCode → Fin 16
  | .illegal => 1
  | .div0    => 2
  | .even    => 3
  | .range   => 4

/-- ID: `ID[31:16] = 0x4D45`, `ID[15:8] = NL`, `ID[7:0] = 0x01` (R31). -/
def idWord (c : Config) : Word := BitVec.ofNat 32 (0x4D45 * 2 ^ 16 + c.nl % 2 ^ 8 * 2 ^ 8 + 0x01)

/-- CTRL as read: IE in bit 0; SRST and the reserved bits read 0 (R27 to R29). -/
def ctrlWord (e : Engine) : Word := BitVec.ofNat 32 e.IE.toNat

/-- STATUS as read: each field at its place in the layout of R32, 0 in the reserved bits (R42). -/
def statusWord (e : Engine) : Word :=
  BitVec.ofNat 32 (e.BUSY.toNat + e.DONE.toNat * 2 ^ 1 + e.PRIME.toNat * 2 ^ 2 + e.NOINV.toNat * 2 ^ 3
    + e.XNEG.toNat * 2 ^ 4 + e.YNEG.toNat * 2 ^ 5 + e.WERR.toNat * 2 ^ 6 + e.ERR.val * 2 ^ 8 + e.FAILIDX.val * 2 ^ 12)

/-- `w[i] = 1` (R14). -/
def bitSet (w : Word) (i : Nat) : Bool := field w i i == 1

/-- A host write to STATUS: "if wdata[1] then DONE <- 0; if wdata[6] then WERR <- 0", and no other bit (R32). -/
def Engine.acknowledge (e : Engine) (w : Word) : Engine :=
  { e with DONE := e.DONE && !bitSet w 1, WERR := e.WERR && !bitSet w 6 }

/-- A host write dropped because the engine is busy sets WERR, which is sticky (R39, R211). -/
def Engine.dropWrite (e : Engine) : Engine := { e with WERR := true }

/-- What every completion writes into STATUS (R43): ERR, PRIME, NOINV and FAILIDX, then BUSY <- 0 and DONE <- 1. -/
def Engine.complete (e : Engine) (err : Fin 16) (prime noinv : Bool) (failidx : Fin 16) : Engine :=
  { e with ERR := err, PRIME := prime, NOINV := noinv, FAILIDX := failidx, BUSY := false, DONE := true }

/-- The interrupt output: the level `irq = CTRL.IE & STATUS.DONE`, no state of its own (R47, R180). -/
def Engine.irq (e : Engine) : Bool := e.IE && e.DONE

end Sys2Proof.Machine
end

