-- ==== Sys2Proof/Machine/Ops.lean ====
section
/-! DEFINITION. The shared operations of the meanings: how a command ends with an error (R176), how it ends without one (R43),
accepting a command word (R30) and resetting the engine (R200, R201). There is no trap, so raising an error is the whole of
taking an exception here (R177), and there is nothing to return from (R184). -/

namespace Sys2Proof.Machine

/-- What a step or a meaning answers. -/
abbrev Result := Host.Outcome State Fault Refusal

/-- `raise Error(code)`: the command ends at once, in its completion step, with the code in ERR, PRIME, NOINV and FAILIDX 0,
and no register and neither sign written (R176). -/
def raiseError (c : ErrCode) (s : State) : Result :=
  .next { s with engine := s.engine.complete c.code false false 0 }

/-- A command ends without error, its results already written into `e` (R43). -/
def finish (e : Engine) (prime noinv : Bool) (failidx : Fin 16) (s : State) : Result :=
  .next { s with engine := e.complete 0 prime noinv failidx }

/-- A command of the modular arithmetic family ends without error: only `x[rd]` is written, then the completion state (R100). -/
def finishReg (rd : RegIdx) (v : Nat) (s : State) : Result :=
  finish (s.engine.setReg rd v) false false 0 s

/-- Accepting a command word: `CMDL <- w; BUSY <- 1; DONE <- 0` (R30). -/
def Engine.accept (e : Engine) (w : Word) : Engine := { e with CMDL := w, BUSY := true, DONE := false }

/-- A hardware or soft reset: every piece of the engine's state at its reset value, a command in progress abandoned (R200, R201).
What the host still has to send and what it has read are the host's and stay. -/
def State.resetEngine (s : State) : State := { s with engine := Engine.reset }

end Sys2Proof.Machine
end

