-- ==== Sys2Proof/Machine/Bus.lean ====
section
/-! DEFINITION. The register window on the host bus (R50 to R66): what each offset names, reads, writes, refused accesses. -/

namespace Sys2Proof.Machine

/-- An access reaches the engine when `BASE <= A < BASE + 0x2000` (R52). -/
def inWindow (c : Config) (addr : Nat) : Bool := decide (c.base ≤ addr) && decide (addr < c.base + 0x2000)

/-- The result windows, in the order of the map (R53). -/
def resultWindow : Nat → ResultReg
  | 0 => .G
  | 1 => .CX
  | _ => .CY

/-- What the word at an offset is (R53). Each register window has 64 slots of 4 bytes, and those at or above NL read as zero
and ignore writes (R56). -/
def slotAt (c : Config) (off : Nat) : Slot :=
  let j := off % 0x100 / 4
  if off < 0x10 then
    match off / 4 with
    | 0 => .id
    | 1 => .ctrl
    | 2 => .status
    | _ => .cmd
  else if off < 0x1000 then .reserved
  else if off < 0x1800 then
    if j < c.nl then .operand (Fin.ofNat 8 ((off - 0x1000) / 0x100)) j else .reserved
  else if off < 0x1B00 then
    if j < c.nl then .result (resultWindow ((off - 0x1800) / 0x100)) j else .reserved
  else .reserved

/-- The slots that hold operand and result limbs: those a read of which is unspecified while busy (R212). -/
def Slot.isLimb : Slot → Bool
  | .operand _ _ => true
  | .result _ _  => true
  | _ => false

/-- The word a slot holds (R30, R31, R32, R54 to R57). -/
def slotWord (c : Config) (e : Engine) : Slot → Word
  | .id          => idWord c
  | .ctrl        => ctrlWord e
  | .status      => statusWord e
  | .cmd         => e.CMDL
  | .operand i j => limb (e.reg i) j
  | .result r j  => limb (e.resultReg r) j
  | .reserved    => 0

/-- The byte of the window at an offset, in its word's little-endian lane (R61). No host access reads one byte (R58); this is how
a statement speaks of every byte of the window. -/
def windowByte (c : Config) (e : Engine) (off : Nat) : Byte := byteLane (slotWord c e (slotAt c off)) (off % 4)

/-- A host read of the word at an offset. It changes nothing of the engine (R64). While busy, a limb reads as a fresh draw and
every other slot exactly (R212). -/
def hostRead (off : Nat) (s : State) : State :=
  if s.engine.BUSY && (slotAt s.cfg off).isLimb then
    { s with reads := ⟨off, Config.freeDraw s.draws⟩ :: s.reads, draws := s.draws + 1 }
  else
    { s with reads := ⟨off, slotWord s.cfg s.engine (slotAt s.cfg off)⟩ :: s.reads }

/-- What a host write of word w to a slot does to the engine (R65).
CTRL: soft reset if bit 1, else IE <- bit 0 (R27, R28). STATUS: R32. CMD: accept, or drop with WERR (R30). An operand limb: write,
or drop with WERR (R54, R211). Every other slot ignores the write and never sets WERR (R31, R55 to R57). -/
def writeSlot (e : Engine) (w : Word) : Slot → Engine
  | .ctrl        => if bitSet w 1 then Engine.reset else { e with IE := bitSet w 0 }
  | .status      => e.acknowledge w
  | .cmd         => if e.BUSY then e.dropWrite else e.accept w
  | .operand i j => if e.BUSY then e.dropWrite else e.setReg i (setLimb (e.reg i) j w)
  | .id          => e
  | .result _ _  => e
  | .reserved    => e

/-- One turn of the host's `WAIT` (R93): it reads STATUS, which is exact also while busy (R212), and goes on to `rest` when DONE
reads 1. Otherwise it will read again; if a command runs, the engine's turn comes when no more reads are to precede it (R220). -/
def hostWait (polls : Nat) (rest : List Arrival) (s : State) : State :=
  { hostRead 0x008 s with
    inbox :=
      if s.engine.DONE then rest
      else if s.engine.BUSY then
        match polls with
        | 0 => .engineTurn :: .waitDone 0 :: rest
        | k + 1 => .waitDone k :: rest
      else .waitDone polls :: rest }

/-- A host write of word w at an offset. -/
def hostWrite (off : Nat) (w : Word) (s : State) : State :=
  { s with engine := writeSlot s.engine w (slotAt s.cfg off) }

/-- An access that the engine refuses with a bus error: not 32 bits wide (R58) or not aligned (R59). -/
def refusedAccess (off : Nat) (size : AccessSize) : Bool := decide (size ≠ .word) || decide (off % 4 ≠ 0)

/-- One host access takes effect (R66). Outside the window it does not reach the engine (R52); refused, it is a fault of the
host's step that carries the offset and the width (R60). -/
def hostAccess (a : BusAccess) (s : State) : Result :=
  if inWindow s.cfg a.addr then
    let off := a.addr - s.cfg.base
    if refusedAccess off a.size then .fault (.busError off a.size)
    else
      match a.kind with
      | .read => .next (hostRead off s)
      | .write w => .next (hostWrite off w s)
  else .next s

end Sys2Proof.Machine
end

