-- ==== Sys2Proof/Machine/Number.lean ====
section
/-! DEFINITION. The number theory of the commands, on exact naturals and integers (R13): the modular power (R102), the extended
Euclidean function (R151), the modular inverse (R15), the probe bank (R130). Each is written so that it can be run on operands
of 2048 bits; Laws/Number.lean says that each has the value the spec writes. -/

namespace Sys2Proof.Machine

/-- `a^e mod m` by at most `fuel` squarings, for `e < 2^fuel`. -/
def powModFuel (m : Nat) : Nat → Nat → Nat → Nat
  | 0, _, _ => 1 % m
  | fuel + 1, a, e =>
    if e = 0 then 1 % m
    else
      let h := powModFuel m fuel (a * a % m) (e / 2)
      if e % 2 = 1 then a * h % m else h

/-- `(a^e) mod m`, with a^0 = 1 for every a (R102). The base is reduced first. -/
def powMod (a e m : Nat) : Nat := powModFuel m (e.log2 + 1) (a % m) e

/-- The recursion of R151 with a bound on its depth. -/
def egFuel : Nat → Nat → Nat → Nat × Int × Int
  | 0, a, _ => (a, 1, 0)
  | fuel + 1, a, b =>
    if b = 0 then (a, 1, 0)
    else
      let t := egFuel fuel b (a % b)
      (t.1, t.2.2, t.2.1 - ((a / b : Nat) : Int) * t.2.2)

/-- `EG(a, b) = (g, x, y)`: the extended Euclidean function, base case b = 0 (R151). The remainder halves in two steps, so the
bound is never reached. -/
def EG (a b : Nat) : Nat × Int × Int := egFuel (2 * b.log2 + 3) a b

/-- `inv(r, m)`: the unique t in [0, m) with `r*t mod m = 1`, for gcd(r, m) = 1 and m > 1 (R15). -/
def inv (r m : Nat) : Nat := ((EG r m).2.1 % (m : Int)).toNat

/-- The probe bank, in its order (R130). -/
def probes : List Nat := [2, 3, 5, 7, 11, 13, 17, 43, 683]

/-- The walk over the probes from index i: the index of the first probe whose residue is not 1, with that residue; or the
index past the last probe, with 1 (R133). It stops at the first failure (R131, R132). -/
def fermatScan (n : Nat) : List Nat → Nat → Nat × Nat
  | [], i => (i, 1)
  | p :: ps, i =>
    let r := powMod p (n - 1) n
    if r = 1 then fermatScan n ps (i + 1) else (i, r)

end Sys2Proof.Machine
end

