-- ==== Sys2Proof/Machine/Euclid.lean ====
section
/-! DEFINITION. EGCD and MODINV (R150 to R162). -/

namespace Sys2Proof.Machine

/-- EGCD (R153): no operand register is written, and no value is an error. -/
def execEgcd (rs1 rs2 : RegIdx) (s : State) : Result :=
  let t := EG (s.engine.reg rs1) (s.engine.reg rs2)
  finish (s.engine.setTriple t.1 t.2.1 t.2.2) false false 0 s

/-- MODINV (R157): the inverse `x mod b` in [0, b), or the zero sentinel with NOINV; the triple goes to G, CX, CY and the signs. -/
def execModinv (rd rs1 rs2 : RegIdx) (s : State) : Result :=
  let a := s.engine.reg rs1
  let b := s.engine.reg rs2
  let t := EG a b
  if t.1 = 1 ∧ b = 0 then raiseError .div0 s
  else
    let e := s.engine.setTriple t.1 t.2.1 t.2.2
    if t.1 = 1 then finish (e.setReg rd (t.2.1 % (b : Int)).toNat) false false 0 s
    else finish (e.setReg rd 0) false true 0 s

end Sys2Proof.Machine
end

