-- ==== Sys2Proof/Machine/Fermat.lean ====
section
/-! DEFINITION. FERMAT (R133): the source's probable-prime test, probe by probe, neither strengthened nor reordered (R132). -/

namespace Sys2Proof.Machine

/-- FERMAT (R133): n = 0 is RANGE (R135); otherwise the deciding residue to rd, its index to FAILIDX, and PRIME when the walk
passed every probe. -/
def execFermat (rd rs1 : RegIdx) (s : State) : Result :=
  let n := s.engine.reg rs1
  if n = 0 then raiseError .range s
  else
    let v := fermatScan n probes 0
    finish (s.engine.setReg rd v.2) (v.1 == probes.length) false (Fin.ofNat 16 v.1) s

end Sys2Proof.Machine
end

