-- ==== Sys2Proof/Machine/ModArith.lean ====
section
/-! DEFINITION. MODEXP, MONTMUL and BARRETT (R100 to R116). -/

namespace Sys2Proof.Machine

/-- MODEXP (R102). -/
def execModexp (rd rs1 rs2 rs3 : RegIdx) (s : State) : Result :=
  let a := s.engine.reg rs1
  let e := s.engine.reg rs2
  let m := s.engine.reg rs3
  if m = 0 then raiseError .div0 s
  else finishReg rd (powMod a e m) s

/-- MONTMUL's value for an odd modulus and reduced operands: `a*b*inv(2^OPW mod m, m) mod m`, and 0 when m = 1 (R108). -/
def montProduct (c : Config) (a b m : Nat) : Nat :=
  if m = 1 then 0 else a * b * inv (c.radix % m) m % m

/-- MONTMUL (R108): the checks DIV0, EVEN, RANGE in that order (R175). -/
def execMontmul (rd rs1 rs2 rs3 : RegIdx) (s : State) : Result :=
  let a := s.engine.reg rs1
  let b := s.engine.reg rs2
  let m := s.engine.reg rs3
  if m = 0 then raiseError .div0 s
  else if m % 2 = 0 then raiseError .even s
  else if m ≤ a ∨ m ≤ b then raiseError .range s
  else finishReg rd (montProduct s.cfg a b m) s

/-- BARRETT (R114): the dividend is `hi * 2^OPW + lo` (R113). -/
def execBarrett (rd rs1 rs2 rs3 : RegIdx) (s : State) : Result :=
  let hi := s.engine.reg rs1
  let lo := s.engine.reg rs2
  let m := s.engine.reg rs3
  if m = 0 then raiseError .div0 s
  else finishReg rd ((hi * s.cfg.radix + lo) % m) s

end Sys2Proof.Machine
end

