-- ==== Sys2Proof/Machine/Dispatch.lean ====
section
/-! DEFINITION. The meaning of each command: one arm per constructor. -/

namespace Sys2Proof.Machine

def exec (i : Instr) (s : State) : Host.Outcome State Fault Refusal :=
  match i with
  | .modexp rd rs1 rs2 rs3 => Sys2Proof.Machine.execModexp rd rs1 rs2 rs3 s
  | .montmul rd rs1 rs2 rs3 => Sys2Proof.Machine.execMontmul rd rs1 rs2 rs3 s
  | .barrett rd rs1 rs2 rs3 => Sys2Proof.Machine.execBarrett rd rs1 rs2 rs3 s
  | .fermat rd rs1 => Sys2Proof.Machine.execFermat rd rs1 s
  | .egcd rs1 rs2 => Sys2Proof.Machine.execEgcd rs1 rs2 s
  | .modinv rd rs1 rs2 => Sys2Proof.Machine.execModinv rd rs1 rs2 s

end Sys2Proof.Machine
end

