-- ==== Sys2Proof/Machine/Complete.lean ====
section
/-! DEFINITION. The engine's completion step (R220): legality is judged here, from CMDL (R90). -/

namespace Sys2Proof.Machine

/-- A command in progress completes: `decode(CMDL)`, then the command's rule, or ILLEGAL (R88, R171, R220). -/
def completeCommand (s : State) : Result :=
  match decode s.engine.CMDL with
  | .ok i => exec i s
  | .error _ => raiseError .illegal s

/-- The engine's turn: the completion step is enabled exactly when BUSY = 1 (R220); an idle engine idles (R44, R192). -/
def engineStep (s : State) : Result := if s.engine.BUSY then completeCommand s else .next s

end Sys2Proof.Machine
end

