-- ==== Sys2Proof/Machine/Step.lean ====
section
/-! DEFINITION. One step of the machine: the next arrival takes effect, in the one serial order of host accesses, completions and
resets (R66, R183, R220). -/

namespace Sys2Proof.Machine

/-- The next arrival takes effect and is gone, but for a WAIT that has not seen DONE = 1 (R93). With none left, a command in progress completes (R221) and an idle engine idles
(R44): the run has ended (R224). -/
def step (s : State) : Host.Outcome State Fault Refusal :=
  match s.inbox with
  | [] => engineStep s
  | .engineTurn :: rest => engineStep { s with inbox := rest }
  | .access a :: rest => hostAccess a { s with inbox := rest }
  | .hardwareReset :: rest => .next (State.resetEngine { s with inbox := rest })
  | .waitDone polls :: rest => .next (hostWait polls rest s)

/-- The state in which the word with the given low bits has just been accepted (R30) and the engine's turn comes next, so that
the next step completes exactly that command. Log entry 4. -/
def State.withFetchWord (s : State) (nbits w : Nat) : State :=
  { s with engine := s.engine.accept (BitVec.ofNat 32 (w % 2 ^ nbits)), inbox := .engineTurn :: s.inbox }

end Sys2Proof.Machine
end

