-- ==== Sys2Proof/Machine/Datapath.lean ====
section
/-! DEFINITION. The internal datapaths the spec describes as informative: the iterative Euclid loop (R151), the word-serial
Montgomery product (R109), the Barrett reduction with its quotient estimate (R112), the square-and-multiply of MODEXP (R103).
No meaning calls them: only the values of R102, R108, R114 and R153 are observable (R104). The statements say that each
datapath computes the value its command writes. -/

namespace Sys2Proof.Machine

/-- R151's loop on `(r0, r1)`, `(s0, s1)`, `(t0, t1)`, with a bound on its iterations. -/
def egLoopFuel : Nat → Nat → Nat → Int → Int → Int → Int → Nat × Int × Int
  | 0, r0, _, s0, _, t0, _ => (r0, s0, t0)
  | fuel + 1, r0, r1, s0, s1, t0, t1 =>
    if r1 = 0 then (r0, s0, t0)
    else
      let q := r0 / r1
      egLoopFuel fuel r1 (r0 - q * r1) s1 (s0 - (q : Int) * s1) t1 (t0 - (q : Int) * t1)

/-- "The engine computes it iteratively" (R151). -/
def egLoop (a b : Nat) : Nat × Int × Int := egLoopFuel (2 * b.log2 + 3) a b 1 0 0 1

/-- One round of the word-serial Montgomery product on the accumulator T and limb `ai` (R109). -/
def montRound (b m m' T ai : Nat) : Nat :=
  let T := T + ai * b
  let u := T % 2 ^ 32 * m' % 2 ^ 32
  (T + u * m) / 2 ^ 32

/-- The limbs of a value, least significant first (R62). -/
def limbsOf (nl v : Nat) : List Nat := (List.range nl).map fun j => (limb v j).toNat

/-- The word-serial Montgomery product over NL limbs of 32 bits (R109). -/
def montLoop (nl a b m : Nat) : Nat :=
  let m' := (2 ^ 32 - inv (m % 2 ^ 32) (2 ^ 32)) % 2 ^ 32
  let T := (limbsOf nl a).foldl (montRound b m m') 0
  if m ≤ T then T - m else T

/-- `mu = floor(2^(2·OPW) / m)` (R112). -/
def barrettMu (opw m : Nat) : Nat := 2 ^ (2 * opw) / m

/-- `r = x − q·m` with the quotient estimate `q = floor(x·mu / 2^(2·OPW))` (R112). -/
def barrettRemainder (opw x m : Nat) : Nat := x - x * barrettMu opw m / 2 ^ (2 * opw) * m

/-- The Barrett datapath with its one correction (R112). -/
def barrettDatapath (opw x m : Nat) : Nat :=
  let r := barrettRemainder opw x m
  if m ≤ r then r - m else r

/-- Square and multiply, left to right, over the bits of e from bit k-1 down to bit 0, with the given product (R103). -/
def ladder (mul : Nat → Nat → Nat) (base e : Nat) : Nat → Nat → Nat
  | 0, acc => acc
  | k + 1, acc =>
    let sq := mul acc acc
    ladder mul base e k (if e / 2 ^ k % 2 = 1 then mul sq base else sq)

/-- MODEXP's datapath (R103): Montgomery form for an odd modulus, double-width products and Barrett for an even one. -/
def modexpDatapath (c : Config) (a e m : Nat) : Nat :=
  if m % 2 = 1 then
    let mul := fun x y => montLoop c.nl x y m
    let one := barrettDatapath c.opw c.radix m
    let r2 := barrettDatapath c.opw (one * one) m
    mul (ladder mul (mul (barrettDatapath c.opw a m) r2) e c.opw one) (1 % m)
  else
    let mul := fun x y => barrettDatapath c.opw (x * y) m
    ladder mul (barrettDatapath c.opw a m) e c.opw (1 % m)

end Sys2Proof.Machine
end

