-- ==== Sys2Proof/Machine/HostProgram.lean ====
section
/-! DEFINITION. The host's notation for programs (R93), as what arrives at the engine. It is no instruction set of the engine;
it says what a host sends to load an operand, issue a command, wait, read a result and acknowledge (R73). -/

namespace Sys2Proof.Machine

/-- `W32 off, v`: `MemWrite(BASE + off, 4, v)` (R93). -/
def w32 (c : Config) (off : Nat) (v : Word) : Arrival := .access ⟨c.base + off, .word, .write v⟩

/-- `R32 off`: `MemRead(BASE + off, 4)` (R93). -/
def r32 (c : Config) (off : Nat) : Arrival := .access ⟨c.base + off, .word, .read⟩

/-- The offset of limb j of operand window i (R54). -/
def operandOffset (i : RegIdx) (j : Nat) : Nat := 0x1000 + 0x100 * i.val + 4 * j

/-- The offset of limb j of a result window (R53, R55). -/
def resultOffset (r : ResultReg) (j : Nat) : Nat :=
  (match r with | .G => 0x1800 | .CX => 0x1900 | .CY => 0x1A00) + 4 * j

/-- `LOAD Ri, v`: every limb, lowest j first (R93). -/
def loadReg (c : Config) (i : RegIdx) (v : Nat) : List Arrival :=
  (List.range c.nl).map fun j => w32 c (operandOffset i j) (limb v j)

/-- `ISSUE cmd` (R93). -/
def issue (c : Config) (i : Instr) : Arrival := w32 c 0x00C (encode i)

/-- `WAIT` (R93), with the engine's turn after so many more reads while a command runs. With no command running and DONE = 0 it
never ends (R223). -/
def wait (polls : Nat) : Arrival := .waitDone polls

/-- The reads of `READ Ri`: "`R32` of every limb of X's window" (R93). The spec gives no order for them; lowest limb first, as
LOAD writes them, is a DESIGN CHOICE (log entry 19). -/
def readReg (c : Config) (i : RegIdx) : List Arrival := (List.range c.nl).map fun j => r32 c (operandOffset i j)

/-- The reads of `READ G`, `READ CX`, `READ CY` (R93), in the same order, DESIGN CHOICE (log entry 19). -/
def readResult (c : Config) (r : ResultReg) : List Arrival := (List.range c.nl).map fun j => r32 c (resultOffset r j)

/-- The value `READ X` gives: `sum limb_j · 2^(32j)` over the words it read (R93), j being the slot of the word's offset in its
window (R54, R55). The order of the reads has no part in it. -/
def readValue (words : List HostRead) : Nat :=
  (words.map fun r => r.data.toNat * 2 ^ (32 * (r.offset % 0x100 / 4))).sum

/-- `ACK`: `W32 0x008, 0x2` (R93). -/
def ack (c : Config) : Arrival := w32 c 0x008 0x2

end Sys2Proof.Machine
end

