-- ==== Sys2Proof/Safety.lean ====
section
/-! DEFINITION. What counts as a good state and as a well-behaved arrival, in the terms the statements use. -/

namespace Sys2Proof.Machine

/-- k steps, stopping at the first fault or refusal: the host's `Host.Core.run` at this machine, in the machine's own types. -/
def run : Nat → State → Result
  | 0, s => .next s
  | k + 1, s =>
    match step s with
    | .next t => run k t
    | .fault r => .fault r
    | .refused r => .refused r

/-- The facts about a state that reset gives and every step keeps (R9, R11, R12, R24, R33, R34, R40, R41, R43). -/
structure State.Inv (s : State) : Prop where
  /-- The parameters are those R9 and R11 allow. -/
  cfg_valid : s.cfg.Valid
  /-- Every operand register is below 2^OPW (R12, R21). -/
  regs_lt : ∀ i : RegIdx, s.engine.reg i < s.cfg.radix
  /-- Every result register is below 2^OPW (R12, R23). -/
  results_lt : ∀ r : ResultReg, s.engine.resultReg r < s.cfg.radix
  /-- A running command is not a completed one (R33, R34). -/
  busy_not_done : ¬(s.engine.BUSY = true ∧ s.engine.DONE = true)
  /-- Codes 5 to 15 are never written (R40). -/
  err_le : s.engine.ERR.val ≤ 4
  /-- Values 10 to 15 are never written (R41). -/
  failidx_le : s.engine.FAILIDX.val ≤ 9
  /-- PRIME is 1 exactly when every probe gave 1 (R35, R41). -/
  prime_iff : s.engine.PRIME = true ↔ s.engine.FAILIDX.val = 9
  /-- An error leaves PRIME, NOINV and FAILIDX 0 (R43, R176). -/
  err_flags : s.engine.ERR.val ≠ 0 →
    s.engine.PRIME = false ∧ s.engine.NOINV = false ∧ s.engine.FAILIDX.val = 0
  /-- NOINV is MODINV's and FAILIDX is FERMAT's: never both (R43). -/
  noinv_flags : s.engine.NOINV = true → s.engine.FAILIDX.val = 0
  /-- There is no negative zero (R24). -/
  no_negative_zero : (s.engine.XNEG = true → s.engine.CX ≠ 0) ∧ (s.engine.YNEG = true → s.engine.CY ≠ 0)

/-- An arrival that the engine does not refuse with a bus error (R58, R59). -/
def Arrival.Accepted (c : Config) : Arrival → Prop
  | .access a => inWindow c a.addr = true → refusedAccess (a.addr - c.base) a.size = false
  | .engineTurn => True
  | .hardwareReset => True
  | .waitDone _ => True

/-- An arrival that resets the engine: the reset input (R200), or a word write to CTRL with bit 1 set (R28). -/
def Arrival.Resets (c : Config) : Arrival → Prop
  | .access a => a.addr = c.base + 0x004 ∧ a.size = .word ∧ ∃ w, a.kind = .write w ∧ bitSet w 1 = true
  | .engineTurn => False
  | .hardwareReset => True
  | .waitDone _ => False

/-- An arrival from outside the engine that the busy interval of a command may hold: an access or a reset. A completion ends the
interval, and a WAIT contains the completion it waits for. -/
def Arrival.FromHost : Arrival → Prop
  | .access _ => True
  | .engineTurn => False
  | .hardwareReset => True
  | .waitDone _ => False

/-- An arrival that is a WAIT. -/
def Arrival.IsWait : Arrival → Prop
  | .waitDone _ => True
  | .access _ | .engineTurn | .hardwareReset => False

/-- The host hangs: it waits for DONE = 1 with no command running and DONE = 0 (R223). -/
def State.Hangs (s : State) : Prop :=
  s.engine.BUSY = false ∧ s.engine.DONE = false ∧ ∃ polls rest, s.inbox = .waitDone polls :: rest

/-- The host writes w to the slot: one aligned word write inside the window whose offset names the slot (R52, R53, R58, R59). -/
def Arrival.Writes (c : Config) (w : Word) (slot : Slot) (a : Arrival) : Prop :=
  ∃ off, off < 0x2000 ∧ off % 4 = 0 ∧ slotAt c off = slot ∧ a = w32 c off w

/-- A function computes R151's recursion: `EG(a, 0) = (a, 1, 0)`, and for b > 0
`EG(a, b) = let (g, x1, y1) = EG(b, a mod b) in (g, y1, x1 − (a / b) * y1)`. -/
def SolvesR151 (F : Nat → Nat → Nat × Int × Int) : Prop :=
  (∀ a, F a 0 = (a, 1, 0)) ∧
  ∀ a b, 0 < b → F a b =
    ((F b (a % b)).1, (F b (a % b)).2.2, (F b (a % b)).2.1 - ((a / b : Nat) : Int) * (F b (a % b)).2.2)

/-- The state after a command that ends with the error of the given code, and nothing else written (R176). -/
def State.afterError (s : State) (code : Fin 16) : State :=
  { s with engine := { s.engine with
      ERR := code, PRIME := false, NOINV := false, FAILIDX := 0, BUSY := false, DONE := true } }

/-- The state after a command that ends without error and has written its results into the engine e (R43). -/
def State.afterOk (s : State) (e : Engine) (prime noinv : Bool) (failidx : Fin 16) : State :=
  { s with engine := { e with
      ERR := 0, PRIME := prime, NOINV := noinv, FAILIDX := failidx, BUSY := false, DONE := true } }

/-- The operand register a command names as its destination (R22): EGCD has none. -/
def destOf : Instr → Option RegIdx
  | .modexp rd _ _ _  => some rd
  | .montmul rd _ _ _ => some rd
  | .barrett rd _ _ _ => some rd
  | .fermat rd _      => some rd
  | .egcd _ _         => none
  | .modinv rd _ _    => some rd

/-- The commands that write G, CX, CY, XNEG and YNEG (R23, R37, R38). -/
def isEuclid : Instr → Bool
  | .egcd _ _     => true
  | .modinv _ _ _ => true
  | .modexp _ _ _ _ | .montmul _ _ _ _ | .barrett _ _ _ _ | .fermat _ _ => false

/-- The engine's turn is next: it heads the inbox, or nothing is left on the bus; `rest` is what follows. -/
def State.EngineNext (s : State) (rest : List Arrival) : Prop :=
  s.inbox = .engineTurn :: rest ∨ (s.inbox = [] ∧ rest = [])

/-- A word offset of the window is a limb of an operand or result register: slot j < NL of a register window (R54, R55). -/
abbrev LimbOffset (c : Config) (off : Nat) : Prop := 0x1000 ≤ off ∧ off < 0x1B00 ∧ off % 0x100 / 4 < c.nl

end Sys2Proof.Machine
end

