-- ==== Sys2Proof/Certificates/Slice0/Obligations.lean ====
section
/-! DEFINITION. The statements for the provers. Each docstring names the rule of the spec it formalises. The engine's registers are
written out (`R.set rd v`, `ERR := 0`, …), so that an equation `exec i s = .next t` says the result, the flags and the frame at
once: what is not written out is as in s. Arithmetic is written as the spec writes it, not through the model's own functions. -/

open Sys2Proof Sys2Proof.Machine

/-! ### Encoding -/

/-- Words written out from R81 and R85, with the command each is, and three words that are none (section 2.5 of the vectors). -/
def Obligations.SampleWordsDecode : Prop :=
  decode 0x00210301 = .ok (.modexp 3 0 1 2) ∧
  decode 0x00777701 = .ok (.modexp 7 7 7 7) ∧
  decode 0x00021702 = .ok (.montmul 7 1 2 0) ∧
  decode 0x00054303 = .ok (.barrett 3 4 5 0) ∧
  decode 0x00000104 = .ok (.fermat 1 0) ∧
  decode 0x00032005 = .ok (.egcd 2 3) ∧
  decode 0x00032406 = .ok (.modinv 4 2 3) ∧
  decode 0x00000000 = .error .undefinedOpcode ∧
  decode 0x00000041 = .error .reservedBits ∧
  decode 0x00000105 = .error .unusedField

/-- Every command is read back from its word, with every operand at every value. -/
def Obligations.DecodeOfEncode : Prop :=
  ∀ i : Instr, i.WellFormed → decode (encode i) = .ok i

/-- A word that decodes is the word its command encodes to: one meaning and one spelling (R86). -/
def Obligations.LegalWordHasOneSpelling : Prop :=
  ∀ (w : Word) (i : Instr), decode w = .ok i → encode i = w

/-- R87: the match and mask of each command; how the masks come about; at most one row matches a word. -/
def Obligations.DecodeIsMaskAndMatch : Prop :=
  (∀ w : Word,
    ((∃ rd a e m, decode w = .ok (.modexp rd a e m)) ↔ w &&& 0xFF8888FF = 0x00000001) ∧
    ((∃ rd a b m, decode w = .ok (.montmul rd a b m)) ↔ w &&& 0xFF8888FF = 0x00000002) ∧
    ((∃ rd hi lo m, decode w = .ok (.barrett rd hi lo m)) ↔ w &&& 0xFF8888FF = 0x00000003) ∧
    ((∃ rd n, decode w = .ok (.fermat rd n)) ↔ w &&& 0xFFFF88FF = 0x00000004) ∧
    ((∃ a b, decode w = .ok (.egcd a b)) ↔ w &&& 0xFFF88FFF = 0x00000005) ∧
    ((∃ rd a b, decode w = .ok (.modinv rd a b)) ↔ w &&& 0xFFF888FF = 0x00000006)) ∧
  (0xFF8888C0 : Word) ||| 0x3F = 0xFF8888FF ∧
  (0xFF8888C0 : Word) ||| 0x3F ||| 0x70000 ||| 0x700000 = 0xFFFF88FF ∧
  (0xFF8888C0 : Word) ||| 0x3F ||| 0x700 ||| 0x700000 = 0xFFF88FFF ∧
  (0xFF8888C0 : Word) ||| 0x3F ||| 0x700000 = 0xFFF888FF ∧
  ∀ w mask₁ match₁ mask₂ match₂ : Word,
    (mask₁, match₁) ∈ [((0xFF8888FF : Word), (1 : Word)), (0xFF8888FF, 2), (0xFF8888FF, 3), (0xFFFF88FF, 4), (0xFFF88FFF, 5),
      (0xFFF888FF, 6)] →
    (mask₂, match₂) ∈ [((0xFF8888FF : Word), (1 : Word)), (0xFF8888FF, 2), (0xFF8888FF, 3), (0xFFFF88FF, 4), (0xFFF88FFF, 5),
      (0xFFF888FF, 6)] →
    w &&& mask₁ = match₁ → w &&& mask₂ = match₂ → (mask₁, match₁) = (mask₂, match₂)

/-- R83 and the four ways of R88: a word is no command exactly when a reserved bit is set, its opcode is undefined, or a field its
opcode does not use is not 0. -/
def Obligations.IllegalWordsExactly : Prop :=
  ∀ w : Word,
    (w &&& 0xFF8888C0 ≠ 0 ↔
      field w 7 6 ≠ 0 ∨ field w 11 11 ≠ 0 ∨ field w 15 15 ≠ 0 ∨ field w 19 19 ≠ 0 ∨ field w 31 23 ≠ 0) ∧
    ((∃ r, decode w = .error r) ↔
      w &&& 0xFF8888C0 ≠ 0 ∨ field w 5 0 = 0 ∨ 7 ≤ field w 5 0 ∨
      (field w 5 0 = 4 ∧ (field w 18 16 ≠ 0 ∨ field w 22 20 ≠ 0)) ∨
      (field w 5 0 = 5 ∧ (field w 10 8 ≠ 0 ∨ field w 22 20 ≠ 0)) ∨
      (field w 5 0 = 6 ∧ field w 22 20 ≠ 0))

/-! ### The step and the command lifecycle -/

/-- R220: at the engine's turn, a busy engine completes the command CMDL decodes to, and the step is exec of it; an idle engine
does nothing. The second clause is the same for the state withFetchWord gives. -/
def Obligations.StepRunsDecodedCommand : Prop :=
  (∀ (s : State) (rest : List Arrival) (i : Instr),
    s.EngineNext rest → s.engine.BUSY = true → decode s.engine.CMDL = .ok i →
    step s = exec i { s with inbox := rest }) ∧
  (∀ (s : State) (nbits w : Nat) (i : Instr), decode (BitVec.ofNat 32 (w % 2 ^ nbits)) = .ok i →
    step (s.withFetchWord nbits w) =
      exec i { s with engine := { s.engine with CMDL := BitVec.ofNat 32 (w % 2 ^ nbits), BUSY := true, DONE := false } }) ∧
  (∀ (s : State) (rest : List Arrival), s.EngineNext rest → s.engine.BUSY = false →
    step s = .next { s with inbox := rest })

/-- R171: a word that decodes to no command completes with ERR = 1 and writes nothing else. -/
def Obligations.IllegalWordCompletesWithIllegal : Prop :=
  ∀ (s : State) (rest : List Arrival) (r : DecodeReject),
    s.EngineNext rest → s.engine.BUSY = true → decode s.engine.CMDL = .error r →
    step s = .next (State.afterError { s with inbox := rest } 1)

/-- R30: CMD reads CMDL; while idle a write of any word is accepted; while busy it is dropped with WERR; CMDL resets to 0. -/
def Obligations.CmdWriteAcceptsOrDrops : Prop :=
  (∀ (s : State) (rest : List Arrival) (w : Word), s.inbox = w32 s.cfg 0x00C w :: rest →
    (s.engine.BUSY = false →
      step s = .next { s with inbox := rest, engine := { s.engine with CMDL := w, BUSY := true, DONE := false } }) ∧
    (s.engine.BUSY = true →
      step s = .next { s with inbox := rest, engine := { s.engine with WERR := true } })) ∧
  (∀ (s : State) (rest : List Arrival), s.inbox = r32 s.cfg 0x00C :: rest →
    step s = .next { s with inbox := rest, reads := ⟨0x00C, s.engine.CMDL⟩ :: s.reads }) ∧
  Engine.reset.CMDL = 0

/-- R221, R223: when the host makes no refused access and no WAIT, the machine runs through everything on the bus in one step for
each arrival and one more, and then no command is left running: every accepted command completes or is reset. With WAITs in it, the
run ends so too, or comes to the host's hang, and to nothing else. That a command still running completes once the inbox is empty
is the model's form of R221's fairness (log entry 7), and so is a WAIT's finite count of reads before the completion (log entry
17). -/
def Obligations.EveryRunEndsIdle : Prop :=
  ∀ s : State, (∀ a ∈ s.inbox, a.Accepted s.cfg) →
    ((∀ a ∈ s.inbox, ¬a.IsWait) →
      ∃ t : State, run (s.inbox.length + 1) s = .next t ∧ t.inbox = [] ∧ t.engine.BUSY = false) ∧
    ∃ (k : Nat) (t : State), run k s = .next t ∧ (t.inbox = [] ∧ t.engine.BUSY = false ∨ t.Hangs)

/-- R70: whatever accesses the host makes while a command is running, short of a reset, CMDL and the operand registers stay as
they were, and the command's result is the one it would have had at once. -/
def Obligations.ResultIsFixedAtAccept : Prop :=
  ∀ (s : State) (accs rest : List Arrival), s.engine.BUSY = true → s.inbox = accs ++ .engineTurn :: rest →
    (∀ a ∈ accs, a.FromHost ∧ a.Accepted s.cfg ∧ ¬ a.Resets s.cfg) →
    (∃ v : State, run accs.length s = .next v ∧
      v.engine.BUSY = true ∧ v.engine.CMDL = s.engine.CMDL ∧ v.engine.R = s.engine.R) ∧
    ∃ t u : State, run (accs.length + 1) s = .next t ∧ completeCommand s = .next u ∧
      t.engine.R = u.engine.R ∧ t.engine.G = u.engine.G ∧ t.engine.CX = u.engine.CX ∧ t.engine.CY = u.engine.CY ∧
      t.engine.CMDL = s.engine.CMDL ∧ t.engine.ERR = u.engine.ERR ∧ t.engine.PRIME = u.engine.PRIME ∧
      t.engine.NOINV = u.engine.NOINV ∧ t.engine.FAILIDX = u.engine.FAILIDX ∧ t.engine.XNEG = u.engine.XNEG ∧
      t.engine.YNEG = u.engine.YNEG ∧ t.engine.BUSY = false ∧ t.engine.DONE = true

/-! ### The modular arithmetic commands -/

/-- R102 for a modulus other than 0 (m = 0 is DivZeroCases): rd <- (a^e) mod m, the flags of R100, nothing else. -/
def Obligations.ModexpResult : Prop :=
  ∀ (s : State) (rd rs1 rs2 rs3 : RegIdx), s.engine.reg rs3 ≠ 0 →
    exec (.modexp rd rs1 rs2 rs3) s = .next (s.afterOk
      { s.engine with R := s.engine.R.set rd.val ((s.engine.reg rs1 ^ s.engine.reg rs2) % s.engine.reg rs3) } false false 0)

/-- R108 for an odd modulus above both operands: rd <- a*b*t mod m, t the unique inverse of 2^OPW mod m in [0, m) (R15), and 0
when m = 1. -/
def Obligations.MontmulResult : Prop :=
  ∀ (s : State) (rd rs1 rs2 rs3 : RegIdx), s.engine.reg rs3 % 2 = 1 →
    s.engine.reg rs1 < s.engine.reg rs3 → s.engine.reg rs2 < s.engine.reg rs3 →
    (s.engine.reg rs3 = 1 →
      exec (.montmul rd rs1 rs2 rs3) s = .next (s.afterOk { s.engine with R := s.engine.R.set rd.val 0 } false false 0)) ∧
    (s.engine.reg rs3 ≠ 1 → ∃ t, t < s.engine.reg rs3 ∧
      2 ^ s.cfg.opw % s.engine.reg rs3 * t % s.engine.reg rs3 = 1 ∧
      exec (.montmul rd rs1 rs2 rs3) s = .next (s.afterOk
        { s.engine with R := s.engine.R.set rd.val (s.engine.reg rs1 * s.engine.reg rs2 * t % s.engine.reg rs3) }
        false false 0))

/-- R114 for a modulus other than 0: rd <- (hi * 2^OPW + lo) mod m, the flags of R100, nothing else. -/
def Obligations.BarrettResult : Prop :=
  ∀ (s : State) (rd rs1 rs2 rs3 : RegIdx), s.engine.reg rs3 ≠ 0 →
    exec (.barrett rd rs1 rs2 rs3) s = .next (s.afterOk
      { s.engine with
        R := s.engine.R.set rd.val
          ((s.engine.reg rs1 * 2 ^ s.cfg.opw + s.engine.reg rs2) % s.engine.reg rs3) } false false 0)

/-- R110: two MONTMULs with the constant 2^(2·OPW) mod m multiply modulo an odd m; the constant is built by BARRETT and MODEXP. -/
def Obligations.TwoMontmulsMultiply : Prop :=
  (∀ (s : State) (t d ra rb rk rm : RegIdx), t ≠ rk → t ≠ rm →
    s.engine.reg rm % 2 = 1 → s.engine.reg ra < s.engine.reg rm → s.engine.reg rb < s.engine.reg rm →
    s.engine.reg rk = 2 ^ (2 * s.cfg.opw) % s.engine.reg rm →
    ∃ s₁ s₂ : State, exec (.montmul t ra rb rm) s = .next s₁ ∧ exec (.montmul d t rk rm) s₁ = .next s₂ ∧
      s₂.engine.ERR = 0 ∧ s₂.engine.reg d = s.engine.reg ra * s.engine.reg rb % s.engine.reg rm) ∧
  (∀ (s : State) (d rhi rlo re rm : RegIdx), d ≠ re → d ≠ rm →
    s.engine.reg rhi = 1 → s.engine.reg rlo = 0 → s.engine.reg re = 2 → s.engine.reg rm ≠ 0 →
    ∃ s₁ s₂ : State, exec (.barrett d rhi rlo rm) s = .next s₁ ∧ s₁.engine.reg d = 2 ^ s.cfg.opw % s.engine.reg rm ∧
      exec (.modexp d d re rm) s₁ = .next s₂ ∧ s₂.engine.reg d = 2 ^ (2 * s.cfg.opw) % s.engine.reg rm)

/-- R109: the word-serial Montgomery product over NL limbs computes the value MONTMUL writes. -/
def Obligations.WordSerialMontgomeryIsMontmul : Prop :=
  ∀ (s : State) (rd rs1 rs2 rs3 : RegIdx), s.cfg.Valid → s.engine.reg rs3 % 2 = 1 → s.engine.reg rs3 < 2 ^ s.cfg.opw →
    s.engine.reg rs1 < s.engine.reg rs3 → s.engine.reg rs2 < s.engine.reg rs3 →
    exec (.montmul rd rs1 rs2 rs3) s = .next (s.afterOk
      { s.engine with
        R := s.engine.R.set rd.val
          (montLoop s.cfg.nl (s.engine.reg rs1) (s.engine.reg rs2) (s.engine.reg rs3)) } false false 0)

/-- R112: the quotient estimate leaves a remainder below 2m, so one correction is enough, and the datapath computes the value
BARRETT writes. -/
def Obligations.BarrettDatapathIsBarrett : Prop :=
  ∀ (s : State) (rd rs1 rs2 rs3 : RegIdx), s.engine.reg rs3 ≠ 0 → s.engine.reg rs3 < 2 ^ s.cfg.opw →
    s.engine.reg rs1 < 2 ^ s.cfg.opw → s.engine.reg rs2 < 2 ^ s.cfg.opw →
    barrettRemainder s.cfg.opw (s.engine.reg rs1 * 2 ^ s.cfg.opw + s.engine.reg rs2) (s.engine.reg rs3)
      < 2 * s.engine.reg rs3 ∧
    exec (.barrett rd rs1 rs2 rs3) s = .next (s.afterOk
      { s.engine with
        R := s.engine.R.set rd.val
          (barrettDatapath s.cfg.opw (s.engine.reg rs1 * 2 ^ s.cfg.opw + s.engine.reg rs2) (s.engine.reg rs3)) }
      false false 0)

/-- R103, R104: left-to-right square and multiply over OPW bits, in Montgomery form for an odd modulus and over Barrett for an even
one, computes the value MODEXP writes. -/
def Obligations.SquareAndMultiplyIsModexp : Prop :=
  ∀ (s : State) (rd rs1 rs2 rs3 : RegIdx), s.cfg.Valid → s.engine.reg rs3 ≠ 0 → s.engine.reg rs3 < 2 ^ s.cfg.opw →
    s.engine.reg rs1 < 2 ^ s.cfg.opw → s.engine.reg rs2 < 2 ^ s.cfg.opw →
    exec (.modexp rd rs1 rs2 rs3) s = .next (s.afterOk
      { s.engine with
        R := s.engine.R.set rd.val
          (modexpDatapath s.cfg (s.engine.reg rs1) (s.engine.reg rs2) (s.engine.reg rs3)) } false false 0)

/-! ### FERMAT -/

/-- R133 for n other than 0: the first probe whose residue is not 1 decides, in the order of the bank; when every residue is 1 the
verdict is PRIME, with FAILIDX 9 and 1 in rd. -/
def Obligations.FermatResult : Prop :=
  ∀ (s : State) (rd rs1 : RegIdx), s.engine.reg rs1 ≠ 0 →
    (∀ (before after : List Nat) (p : Nat), [2, 3, 5, 7, 11, 13, 17, 43, 683] = before ++ p :: after →
      (∀ q ∈ before, q ^ (s.engine.reg rs1 - 1) % s.engine.reg rs1 = 1) →
      p ^ (s.engine.reg rs1 - 1) % s.engine.reg rs1 ≠ 1 →
      exec (.fermat rd rs1) s = .next (s.afterOk
        { s.engine with R := s.engine.R.set rd.val (p ^ (s.engine.reg rs1 - 1) % s.engine.reg rs1) }
        false false (Fin.ofNat 16 before.length))) ∧
    ((∀ q ∈ [2, 3, 5, 7, 11, 13, 17, 43, 683], q ^ (s.engine.reg rs1 - 1) % s.engine.reg rs1 = 1) →
      exec (.fermat rd rs1) s = .next (s.afterOk { s.engine with R := s.engine.R.set rd.val 1 } true false 9))

/-- R136: n = 1 is composite at probe 0 with residue 0. -/
def Obligations.FermatOneIsComposite : Prop :=
  ∀ (s : State) (rd rs1 : RegIdx), s.engine.reg rs1 = 1 →
    2 ^ 0 % 1 = 0 ∧
    exec (.fermat rd rs1) s = .next (s.afterOk { s.engine with R := s.engine.R.set rd.val 0 } false false 0)

/-- R137: a candidate equal to a probe is composite at that probe: every earlier probe gives 1, and that probe gives residue 0. -/
def Obligations.FermatProbeIsComposite : Prop :=
  ∀ (s : State) (rd rs1 : RegIdx) (k : Fin 9),
    s.engine.reg rs1 = [2, 3, 5, 7, 11, 13, 17, 43, 683][k] →
    (∀ j : Fin 9, j < k → [2, 3, 5, 7, 11, 13, 17, 43, 683][j] ^ (s.engine.reg rs1 - 1) % s.engine.reg rs1 = 1) ∧
    s.engine.reg rs1 ^ (s.engine.reg rs1 - 1) % s.engine.reg rs1 = 0 ∧
    exec (.fermat rd rs1) s =
      .next (s.afterOk { s.engine with R := s.engine.R.set rd.val 0 } false false (Fin.ofNat 16 k.val))

/-- R138: every even n >= 2 is composite at probe 0, with an even residue (0 for n = 2); every prime outside the bank passes all
nine probes. -/
def Obligations.FermatOnEvensAndPrimes : Prop :=
  ∀ (s : State) (rd rs1 : RegIdx),
    (2 ≤ s.engine.reg rs1 → s.engine.reg rs1 % 2 = 0 → ∃ r, r % 2 = 0 ∧ (s.engine.reg rs1 = 2 → r = 0) ∧
      r = 2 ^ (s.engine.reg rs1 - 1) % s.engine.reg rs1 ∧
      exec (.fermat rd rs1) s = .next (s.afterOk { s.engine with R := s.engine.R.set rd.val r } false false 0)) ∧
    (Nat.Prime (s.engine.reg rs1) → s.engine.reg rs1 ∉ [2, 3, 5, 7, 11, 13, 17, 43, 683] →
      exec (.fermat rd rs1) s = .next (s.afterOk { s.engine with R := s.engine.R.set rd.val 1 } true false 9))

/-! ### EGCD and MODINV -/

/-- R151: EG is the recursion with base case b = 0, and the iterative loop gives the same triple for every a, b. -/
def Obligations.EuclidLoopIsRecursion : Prop :=
  SolvesR151 EG ∧ (∀ F, SolvesR151 F → ∀ a b, F a b = EG a b) ∧ ∀ a b, egLoop a b = EG a b

/-- R153: G, CX, CY and the signs receive the triple of the one function that solves R151; no operand register is written. -/
def Obligations.EgcdResult : Prop :=
  ∀ F, SolvesR151 F → ∀ (s : State) (rs1 rs2 : RegIdx),
    exec (.egcd rs1 rs2) s = .next (s.afterOk
      { s.engine with
        G := (F (s.engine.reg rs1) (s.engine.reg rs2)).1,
        CX := (F (s.engine.reg rs1) (s.engine.reg rs2)).2.1.natAbs,
        XNEG := decide ((F (s.engine.reg rs1) (s.engine.reg rs2)).2.1 < 0),
        CY := (F (s.engine.reg rs1) (s.engine.reg rs2)).2.2.natAbs,
        YNEG := decide ((F (s.engine.reg rs1) (s.engine.reg rs2)).2.2 < 0) } false false 0)

/-- R157 without error: the inverse `x mod b`, or the zero sentinel with NOINV; the triple goes where EGCD puts it. -/
def Obligations.ModinvResult : Prop :=
  ∀ F, SolvesR151 F → ∀ (s : State) (rd rs1 rs2 : RegIdx),
    ((F (s.engine.reg rs1) (s.engine.reg rs2)).1 = 1 → s.engine.reg rs2 ≠ 0 →
      exec (.modinv rd rs1 rs2) s = .next (s.afterOk
        { s.engine with
          R := s.engine.R.set rd.val ((F (s.engine.reg rs1) (s.engine.reg rs2)).2.1 % (s.engine.reg rs2 : Int)).toNat,
          G := 1,
          CX := (F (s.engine.reg rs1) (s.engine.reg rs2)).2.1.natAbs,
          XNEG := decide ((F (s.engine.reg rs1) (s.engine.reg rs2)).2.1 < 0),
          CY := (F (s.engine.reg rs1) (s.engine.reg rs2)).2.2.natAbs,
          YNEG := decide ((F (s.engine.reg rs1) (s.engine.reg rs2)).2.2 < 0) } false false 0)) ∧
    ((F (s.engine.reg rs1) (s.engine.reg rs2)).1 ≠ 1 →
      exec (.modinv rd rs1 rs2) s = .next (s.afterOk
        { s.engine with
          R := s.engine.R.set rd.val 0,
          G := (F (s.engine.reg rs1) (s.engine.reg rs2)).1,
          CX := (F (s.engine.reg rs1) (s.engine.reg rs2)).2.1.natAbs,
          XNEG := decide ((F (s.engine.reg rs1) (s.engine.reg rs2)).2.1 < 0),
          CY := (F (s.engine.reg rs1) (s.engine.reg rs2)).2.2.natAbs,
          YNEG := decide ((F (s.engine.reg rs1) (s.engine.reg rs2)).2.2 < 0) } false true 0))

/-- R152: what EGCD leaves, and what MODINV leaves when it ends without error, are the gcd and Bézout coefficients within the
bounds, and each fits in OPW bits when the operands do. -/
def Obligations.BezoutIdentityAndBounds : Prop :=
  ∀ (s : State) (rd rs1 rs2 : RegIdx),
    let a := s.engine.reg rs1
    let b := s.engine.reg rs2
    let good := fun e : Engine =>
      (a : Int) * e.coeffX + b * e.coeffY = e.G ∧ e.G = Nat.gcd a b ∧
      e.coeffX.natAbs ≤ max 1 b ∧ e.coeffY.natAbs ≤ max 1 a ∧
      (32 ≤ s.cfg.opw → a < 2 ^ s.cfg.opw → b < 2 ^ s.cfg.opw →
        e.G < 2 ^ s.cfg.opw ∧ e.CX < 2 ^ s.cfg.opw ∧ e.CY < 2 ^ s.cfg.opw) ∧
      e.CX = e.coeffX.natAbs ∧ e.CY = e.coeffY.natAbs
    (∃ t, exec (.egcd rs1 rs2) s = .next t ∧ good t.engine) ∧
    (∃ t, exec (.modinv rd rs1 rs2) s = .next t ∧ (¬(a = 1 ∧ b = 0) → good t.engine))

/-- R156: when gcd(a, b) = 1 and b > 1, MODINV writes the unique t in [0, b) with `a·t mod b = 1`. -/
def Obligations.ModinvWritesTheInverse : Prop :=
  ∀ (s : State) (rd rs1 rs2 : RegIdx), Nat.gcd (s.engine.reg rs1) (s.engine.reg rs2) = 1 → 1 < s.engine.reg rs2 →
    ∃ t : State, exec (.modinv rd rs1 rs2) s = .next t ∧ t.engine.ERR = 0 ∧ t.engine.NOINV = false ∧
      t.engine.reg rd < s.engine.reg rs2 ∧
      s.engine.reg rs1 * t.engine.reg rd % s.engine.reg rs2 = 1 ∧
      ∀ u, u < s.engine.reg rs2 → s.engine.reg rs1 * u % s.engine.reg rs2 = 1 → u = t.engine.reg rd

/-- The first part of R160: MODINV(a, b) writes the same rd as MODINV(a mod b, b) whenever b > 1. -/
def Obligations.ModinvReducesItsOperand : Prop :=
  ∀ (s s' : State) (rd rs1 rs2 : RegIdx), 1 < s.engine.reg rs2 → s'.engine.reg rs2 = s.engine.reg rs2 →
    s'.engine.reg rs1 = s.engine.reg rs1 % s.engine.reg rs2 →
    ∃ t t' : State, exec (.modinv rd rs1 rs2) s = .next t ∧ exec (.modinv rd rs1 rs2) s' = .next t' ∧
      t.engine.reg rd = t'.engine.reg rd ∧ t.engine.NOINV = t'.engine.NOINV

/-! ### Errors and flags -/

/-- R172: where DIV0 is raised, and that MODINV raises it exactly when a = 1 and b = 0. -/
def Obligations.DivZeroCases : Prop :=
  (∀ (s : State) (rd rs1 rs2 rs3 : RegIdx), s.engine.reg rs3 = 0 →
    exec (.modexp rd rs1 rs2 rs3) s = .next (s.afterError 2) ∧
    exec (.montmul rd rs1 rs2 rs3) s = .next (s.afterError 2) ∧
    exec (.barrett rd rs1 rs2 rs3) s = .next (s.afterError 2)) ∧
  (∀ (s : State) (rd rs1 rs2 : RegIdx),
    (s.engine.reg rs1 = 1 ∧ s.engine.reg rs2 = 0 → exec (.modinv rd rs1 rs2) s = .next (s.afterError 2)) ∧
    ((EG (s.engine.reg rs1) (s.engine.reg rs2)).1 = 1 ∧ s.engine.reg rs2 = 0 ↔
      s.engine.reg rs1 = 1 ∧ s.engine.reg rs2 = 0) ∧
    ∀ t : State, exec (.modinv rd rs1 rs2) s = .next t →
      (t.engine.ERR = 2 ↔ s.engine.reg rs1 = 1 ∧ s.engine.reg rs2 = 0))

/-- R173 and R174: MONTMUL's EVEN, before RANGE, and RANGE; FERMAT's RANGE on 0. -/
def Obligations.EvenAndRangeCases : Prop :=
  (∀ (s : State) (rd rs1 rs2 rs3 : RegIdx), s.engine.reg rs3 ≠ 0 → s.engine.reg rs3 % 2 = 0 →
    exec (.montmul rd rs1 rs2 rs3) s = .next (s.afterError 3)) ∧
  (∀ (s : State) (rd rs1 rs2 rs3 : RegIdx), s.engine.reg rs3 % 2 = 1 →
    s.engine.reg rs3 ≤ s.engine.reg rs1 ∨ s.engine.reg rs3 ≤ s.engine.reg rs2 →
    exec (.montmul rd rs1 rs2 rs3) s = .next (s.afterError 4)) ∧
  (∀ (s : State) (rd rs1 : RegIdx), s.engine.reg rs1 = 0 → exec (.fermat rd rs1) s = .next (s.afterError 4))

/-- R170 and R175: the code of a completion, each cause in the order in which it wins; codes above 4 are never raised. -/
def Obligations.ErrorCodes : Prop :=
  ∀ s t : State, completeCommand s = .next t →
    (t.engine.ERR = 1 ↔ ∃ r, decode s.engine.CMDL = .error r) ∧
    (t.engine.ERR = 2 ↔
      (∃ rd rs1 rs2 rs3, (decode s.engine.CMDL = .ok (.modexp rd rs1 rs2 rs3) ∨
        decode s.engine.CMDL = .ok (.montmul rd rs1 rs2 rs3) ∨ decode s.engine.CMDL = .ok (.barrett rd rs1 rs2 rs3)) ∧
        s.engine.reg rs3 = 0) ∨
      (∃ rd rs1 rs2, decode s.engine.CMDL = .ok (.modinv rd rs1 rs2) ∧ Nat.gcd (s.engine.reg rs1) (s.engine.reg rs2) = 1 ∧
        s.engine.reg rs2 = 0)) ∧
    (t.engine.ERR = 3 ↔ ∃ rd rs1 rs2 rs3, decode s.engine.CMDL = .ok (.montmul rd rs1 rs2 rs3) ∧
      s.engine.reg rs3 ≠ 0 ∧ s.engine.reg rs3 % 2 = 0) ∧
    (t.engine.ERR = 4 ↔
      (∃ rd rs1 rs2 rs3, decode s.engine.CMDL = .ok (.montmul rd rs1 rs2 rs3) ∧ s.engine.reg rs3 % 2 = 1 ∧
        (s.engine.reg rs3 ≤ s.engine.reg rs1 ∨ s.engine.reg rs3 ≤ s.engine.reg rs2)) ∨
      (∃ rd rs1, decode s.engine.CMDL = .ok (.fermat rd rs1) ∧ s.engine.reg rs1 = 0)) ∧
    t.engine.ERR.val ≤ 4

/-- R176: a completion with a code other than 0 has written the code, PRIME, NOINV, FAILIDX, BUSY and DONE, and nothing else. -/
def Obligations.ErrorsArePrecise : Prop :=
  ∀ s t : State, completeCommand s = .next t → t.engine.ERR ≠ 0 → t = s.afterError t.engine.ERR

/-- R35: PRIME is 1 after a completion exactly when it was a FERMAT without error whose nine probes gave 1. -/
def Obligations.PrimeFlagRule : Prop :=
  ∀ s t : State, completeCommand s = .next t →
    (t.engine.PRIME = true ↔ ∃ rd rs1, decode s.engine.CMDL = .ok (.fermat rd rs1) ∧ t.engine.ERR = 0 ∧
      ∀ q ∈ [2, 3, 5, 7, 11, 13, 17, 43, 683], q ^ (s.engine.reg rs1 - 1) % s.engine.reg rs1 = 1)

/-- R36: NOINV is 1 after a completion exactly when it was a MODINV without error with gcd(a, b) other than 1. -/
def Obligations.NoInverseFlagRule : Prop :=
  ∀ s t : State, completeCommand s = .next t →
    (t.engine.NOINV = true ↔ ∃ rd rs1 rs2, decode s.engine.CMDL = .ok (.modinv rd rs1 rs2) ∧ t.engine.ERR = 0 ∧
      Nat.gcd (s.engine.reg rs1) (s.engine.reg rs2) ≠ 1)

/-- R37 and R38: XNEG and YNEG, each paired with its magnitude (R24), are written by EGCD and MODINV when they complete without
error, and by no other completion. -/
def Obligations.SignFlagsRule : Prop :=
  ∀ s t : State, completeCommand s = .next t →
    ((∃ i, decode s.engine.CMDL = .ok i ∧ isEuclid i = true ∧ t.engine.ERR = 0) →
      ∀ rs1 rs2, (decode s.engine.CMDL = .ok (.egcd rs1 rs2) ∨ ∃ rd, decode s.engine.CMDL = .ok (.modinv rd rs1 rs2)) →
        t.engine.coeffX = (EG (s.engine.reg rs1) (s.engine.reg rs2)).2.1 ∧
        t.engine.coeffY = (EG (s.engine.reg rs1) (s.engine.reg rs2)).2.2 ∧
        (t.engine.XNEG = true ↔ (EG (s.engine.reg rs1) (s.engine.reg rs2)).2.1 < 0) ∧
        (t.engine.YNEG = true ↔ (EG (s.engine.reg rs1) (s.engine.reg rs2)).2.2 < 0)) ∧
    ((¬∃ i, decode s.engine.CMDL = .ok i ∧ isEuclid i = true ∧ t.engine.ERR = 0) →
      t.engine.XNEG = s.engine.XNEG ∧ t.engine.YNEG = s.engine.YNEG)

/-- R41: FAILIDX after a completion: the index of FERMAT's first failing probe, or 9; 0 after every other completion; never above
9; and 0 with PRIME = 0 and ERR = 0 after a FERMAT means probe 2 failed. -/
def Obligations.FailIndexRule : Prop :=
  ∀ s t : State, completeCommand s = .next t →
    (∀ rd rs1, decode s.engine.CMDL = .ok (.fermat rd rs1) → t.engine.ERR = 0 →
      (∀ (before after : List Nat) (p : Nat), [2, 3, 5, 7, 11, 13, 17, 43, 683] = before ++ p :: after →
        (∀ q ∈ before, q ^ (s.engine.reg rs1 - 1) % s.engine.reg rs1 = 1) →
        p ^ (s.engine.reg rs1 - 1) % s.engine.reg rs1 ≠ 1 → t.engine.FAILIDX.val = before.length) ∧
      ((∀ q ∈ [2, 3, 5, 7, 11, 13, 17, 43, 683], q ^ (s.engine.reg rs1 - 1) % s.engine.reg rs1 = 1) →
        t.engine.FAILIDX.val = 9) ∧
      (t.engine.FAILIDX = 0 → t.engine.PRIME = false → 2 ^ (s.engine.reg rs1 - 1) % s.engine.reg rs1 ≠ 1)) ∧
    ((¬∃ rd rs1, decode s.engine.CMDL = .ok (.fermat rd rs1) ∧ t.engine.ERR = 0) → t.engine.FAILIDX = 0) ∧
    t.engine.FAILIDX.val ≤ 9

/-- The frame of every command: the parameters, the environment, IE, WERR, CMDL, every operand register but the destination, and
for a command outside the Euclid family G, CX, CY and the signs are unchanged; and every byte of the window outside STATUS, the
destination's limbs, and for the Euclid family the result windows, reads as before. -/
def Obligations.CommandFrame : Prop :=
  ∀ (i : Instr) (s t : State), exec i s = .next t →
    t.cfg = s.cfg ∧ t.inbox = s.inbox ∧ t.reads = s.reads ∧ t.draws = s.draws ∧
    t.engine.IE = s.engine.IE ∧ t.engine.WERR = s.engine.WERR ∧ t.engine.CMDL = s.engine.CMDL ∧
    (∀ k, destOf i ≠ some k → t.engine.reg k = s.engine.reg k) ∧
    (isEuclid i = false → t.engine.G = s.engine.G ∧ t.engine.CX = s.engine.CX ∧ t.engine.CY = s.engine.CY ∧
      t.engine.XNEG = s.engine.XNEG ∧ t.engine.YNEG = s.engine.YNEG) ∧
    ∀ off, ¬(0x008 ≤ off ∧ off < 0x00C) →
      (∀ rd, destOf i = some rd → ¬(operandOffset rd 0 ≤ off ∧ off < operandOffset rd s.cfg.nl)) →
      (isEuclid i = true → ¬(0x1800 ≤ off ∧ off < 0x1B00)) →
      windowByte t.cfg t.engine off = windowByte s.cfg s.engine off

/-- R104 and R140: what MODEXP and FERMAT write is a function of their operands' values alone: two states that agree on those, and
may differ in everything else, OPW and flags included, end with the same result, code and flags. -/
def Obligations.ModexpAndFermatSeeOnlyTheirOperands : Prop :=
  ∀ (s s' : State) (rd rs1 rs2 rs3 rd' rs1' rs2' rs3' : RegIdx), s.engine.reg rs1 = s'.engine.reg rs1' →
    ((s.engine.reg rs2 = s'.engine.reg rs2' → s.engine.reg rs3 = s'.engine.reg rs3' → s.engine.reg rs3 ≠ 0 →
      ∃ t t' : State, exec (.modexp rd rs1 rs2 rs3) s = .next t ∧ exec (.modexp rd' rs1' rs2' rs3') s' = .next t' ∧
        t.engine.reg rd = t'.engine.reg rd' ∧ t.engine.ERR = t'.engine.ERR) ∧
     (s.engine.reg rs1 ≠ 0 →
      ∃ t t' : State, exec (.fermat rd rs1) s = .next t ∧ exec (.fermat rd' rs1') s' = .next t' ∧
        t.engine.reg rd = t'.engine.reg rd' ∧ t.engine.ERR = t'.engine.ERR ∧
        t.engine.PRIME = t'.engine.PRIME ∧ t.engine.FAILIDX = t'.engine.FAILIDX))

/-! ### The register window -/

/-- R31: ID is constant, read exactly whether or not the engine is busy; its fields; writes are ignored. -/
def Obligations.IdRegister : Prop :=
  (∀ (s : State) (rest : List Arrival), s.cfg.Valid → s.inbox = r32 s.cfg 0x000 :: rest →
    ∃ v, step s = .next { s with inbox := rest, reads := ⟨0x000, v⟩ :: s.reads } ∧
      field v 31 16 = 0x4D45 ∧ field v 15 8 = s.cfg.nl ∧ field v 7 0 = 0x01 ∧ s.cfg.opw = 32 * field v 15 8 ∧
      (s.cfg.opw = 256 → v = 0x4D450801)) ∧
  (∀ (s : State) (rest : List Arrival) (w : Word), s.inbox = w32 s.cfg 0x000 w :: rest →
    step s = .next { s with inbox := rest })

/-- R32, R42: a read of STATUS gives each field at its bits and 0 in the reserved ones, busy or not; a write clears DONE where bit 1
is set and WERR where bit 6 is set, and changes nothing else. -/
def Obligations.StatusRegister : Prop :=
  (∀ (s : State) (rest : List Arrival), s.inbox = r32 s.cfg 0x008 :: rest →
    ∃ v, step s = .next { s with inbox := rest, reads := ⟨0x008, v⟩ :: s.reads } ∧
      field v 0 0 = s.engine.BUSY.toNat ∧ field v 1 1 = s.engine.DONE.toNat ∧ field v 2 2 = s.engine.PRIME.toNat ∧
      field v 3 3 = s.engine.NOINV.toNat ∧ field v 4 4 = s.engine.XNEG.toNat ∧ field v 5 5 = s.engine.YNEG.toNat ∧
      field v 6 6 = s.engine.WERR.toNat ∧ field v 7 7 = 0 ∧ field v 11 8 = s.engine.ERR.val ∧
      field v 15 12 = s.engine.FAILIDX.val ∧ field v 31 16 = 0) ∧
  (∀ (s : State) (rest : List Arrival) (w : Word), s.inbox = w32 s.cfg 0x008 w :: rest →
    step s = .next { s with inbox := rest, engine := { s.engine with
      DONE := if w.getLsbD 1 then false else s.engine.DONE,
      WERR := if w.getLsbD 6 then false else s.engine.WERR } })

/-- R28, R29, R201: a write to CTRL with bit 1 set resets the engine whatever bit 0 is, busy or not; with bit 1 clear it sets IE to
bit 0 and does nothing else; CTRL reads IE in bit 0 and 0 elsewhere. -/
def Obligations.CtrlRegister : Prop :=
  (∀ (s : State) (rest : List Arrival) (w : Word), s.inbox = w32 s.cfg 0x004 w :: rest →
    (w.getLsbD 1 = true → step s = .next { s with inbox := rest, engine := Engine.reset }) ∧
    (w.getLsbD 1 = false → step s = .next { s with inbox := rest, engine := { s.engine with IE := w.getLsbD 0 } })) ∧
  (∀ (s : State) (rest : List Arrival), s.inbox = r32 s.cfg 0x004 :: rest →
    step s = .next { s with inbox := rest, reads := ⟨0x004, if s.engine.IE then 1 else 0⟩ :: s.reads })

/-- R54: slot j of operand window i. A read while idle gives limb j; a write while idle changes limb j only; while busy a read is a
draw and a write is dropped with WERR. -/
def Obligations.OperandWindow : Prop :=
  ∀ (s : State) (rest : List Arrival) (i : RegIdx) (j : Nat), s.cfg.Valid → j < s.cfg.nl →
    (s.inbox = r32 s.cfg (0x1000 + 0x100 * i.val + 4 * j) :: rest →
      (s.engine.BUSY = false → ∃ v : Word, v.toNat = s.engine.reg i / 2 ^ (32 * j) % 2 ^ 32 ∧
        step s = .next { s with inbox := rest, reads := ⟨0x1000 + 0x100 * i.val + 4 * j, v⟩ :: s.reads }) ∧
      (s.engine.BUSY = true →
        step s = .next { s with
          inbox := rest, draws := s.draws + 1,
          reads := ⟨0x1000 + 0x100 * i.val + 4 * j, Config.freeDraw s.draws⟩ :: s.reads })) ∧
    ∀ w : Word, s.inbox = w32 s.cfg (0x1000 + 0x100 * i.val + 4 * j) w :: rest →
      (s.engine.BUSY = false → ∃ v, v / 2 ^ (32 * j) % 2 ^ 32 = w.toNat ∧
        (∀ k, k ≠ j → v / 2 ^ (32 * k) % 2 ^ 32 = s.engine.reg i / 2 ^ (32 * k) % 2 ^ 32) ∧
        step s = .next { s with inbox := rest, engine := { s.engine with R := s.engine.R.set i.val v } }) ∧
      (s.engine.BUSY = true → step s = .next { s with inbox := rest, engine := { s.engine with WERR := true } })

/-- R55: slot j of the G, CX or CY window: a read while idle gives that limb, while busy a draw; a write is ignored and does not set
WERR, busy or not. -/
def Obligations.ResultWindow : Prop :=
  ∀ (s : State) (rest : List Arrival) (r : ResultReg) (j : Nat), s.cfg.Valid → j < s.cfg.nl →
    (s.inbox = r32 s.cfg (resultOffset r j) :: rest →
      (s.engine.BUSY = false → ∃ v : Word, v.toNat = s.engine.resultReg r / 2 ^ (32 * j) % 2 ^ 32 ∧
        step s = .next { s with inbox := rest, reads := ⟨resultOffset r j, v⟩ :: s.reads }) ∧
      (s.engine.BUSY = true →
        step s = .next { s with
          inbox := rest, draws := s.draws + 1,
          reads := ⟨resultOffset r j, Config.freeDraw s.draws⟩ :: s.reads })) ∧
    ∀ w : Word, s.inbox = w32 s.cfg (resultOffset r j) w :: rest → step s = .next { s with inbox := rest }

/-- R56 and the offsets of R57: a slot at or above NL and a reserved offset read 0, also while busy, and ignore writes. -/
def Obligations.ReservedOffsetsReadZero : Prop :=
  ∀ (s : State) (rest : List Arrival) (off : Nat), off < 0x2000 → off % 4 = 0 →
    (0x0010 ≤ off ∧ off < 0x1000 ∨ 0x1B00 ≤ off ∨ (0x1000 ≤ off ∧ s.cfg.nl ≤ off % 0x100 / 4)) →
    (s.inbox = r32 s.cfg off :: rest → step s = .next { s with inbox := rest, reads := ⟨off, 0⟩ :: s.reads }) ∧
    ∀ w : Word, s.inbox = w32 s.cfg off w :: rest → step s = .next { s with inbox := rest }

/-- R212: while busy, a read of any limb of an operand or result window is a fresh draw; a read of any other offset is exact, the one
an idle engine in the same state would give. -/
def Obligations.BusyReadsAreDraws : Prop :=
  ∀ (s : State) (rest : List Arrival) (off : Nat), s.engine.BUSY = true → off < 0x2000 → off % 4 = 0 →
    s.inbox = r32 s.cfg off :: rest →
    (LimbOffset s.cfg off → step s = .next { s with
          inbox := rest, draws := s.draws + 1,
          reads := ⟨off, Config.freeDraw s.draws⟩ :: s.reads }) ∧
    (¬LimbOffset s.cfg off → ∃ v, step s = .next { s with inbox := rest, reads := ⟨off, v⟩ :: s.reads } ∧
      v = slotWord s.cfg s.engine (slotAt s.cfg off))

/-- R211: while busy, what a host write at each offset of the window does: CMD and operand limbs are dropped with WERR; CTRL and
STATUS are never dropped; every other write is ignored and does not set WERR. -/
def Obligations.BusyWritesAreDropped : Prop :=
  ∀ (s : State) (rest : List Arrival) (off : Nat) (w : Word), s.engine.BUSY = true → off < 0x2000 → off % 4 = 0 →
    s.inbox = w32 s.cfg off w :: rest →
    step s = .next { s with inbox := rest, engine :=
      if off = 0x00C ∨ (LimbOffset s.cfg off ∧ off < 0x1800) then { s.engine with WERR := true }
      else if off = 0x004 then (if w.getLsbD 1 then Engine.reset else { s.engine with IE := w.getLsbD 0 })
      else if off = 0x008 then { s.engine with
        DONE := if w.getLsbD 1 then false else s.engine.DONE,
        WERR := if w.getLsbD 6 then false else s.engine.WERR }
      else s.engine }

/-- R58 and R59: an access inside the window of another size than a word, or not aligned, is refused, with the offset and the size;
an aligned word access is not. -/
def Obligations.RefusedAccessesFault : Prop :=
  ∀ (s : State) (rest : List Arrival) (a : BusAccess), s.inbox = .access a :: rest →
    s.cfg.base ≤ a.addr → a.addr < s.cfg.base + 0x2000 →
    (a.size ≠ .word ∨ (a.addr - s.cfg.base) % 4 ≠ 0 → step s = .fault (.busError (a.addr - s.cfg.base) a.size)) ∧
    (a.size = .word ∧ (a.addr - s.cfg.base) % 4 = 0 → ∃ t, step s = .next t)

/-- R52: an access outside the window does not reach the engine. -/
def Obligations.AccessOutsideTheWindow : Prop :=
  ∀ (s : State) (rest : List Arrival) (a : BusAccess), s.inbox = .access a :: rest →
    a.addr < s.cfg.base ∨ s.cfg.base + 0x2000 ≤ a.addr → step s = .next { s with inbox := rest }

/-- R64: a read changes nothing of the engine, and reading an offset twice with nothing between gives the same value twice, but for a
limb read while busy. -/
def Obligations.ReadsChangeNothing : Prop :=
  (∀ (s t : State) (rest : List Arrival) (a : BusAccess), s.inbox = .access a :: rest → a.kind = .read →
    step s = .next t → t.engine = s.engine ∧ t.cfg = s.cfg ∧ t.inbox = rest) ∧
  (∀ (s : State) (rest : List Arrival) (off : Nat), off < 0x2000 → off % 4 = 0 →
    (s.engine.BUSY = false ∨ ¬LimbOffset s.cfg off) → s.inbox = r32 s.cfg off :: r32 s.cfg off :: rest →
    ∃ v, run 2 s = .next ({ s with inbox := rest, reads := ⟨off, v⟩ :: ⟨off, v⟩ :: s.reads } : State))

/-- R62, R93, R214: writing every limb of a value, lowest first, while idle, leaves exactly that value in the register. -/
def Obligations.LoadWritesTheWholeOperand : Prop :=
  ∀ (s : State) (rest : List Arrival) (i : RegIdx) (v : Nat), s.Inv → s.engine.BUSY = false → v < 2 ^ s.cfg.opw →
    s.inbox = loadReg s.cfg i v ++ rest →
    run s.cfg.nl s =
      .next ({ s with inbox := rest, engine := { s.engine with R := s.engine.R.set i.val v } } : State)

/-! ### Rules of the whole machine -/

/-- R48: the value of every piece of state after reset, and that hardware and soft reset give the same ones. -/
def Obligations.ResetValues : Prop :=
  (∀ k, Engine.reset.reg k = 0) ∧ Engine.reset.G = 0 ∧ Engine.reset.CX = 0 ∧ Engine.reset.CY = 0 ∧
  Engine.reset.IE = false ∧ Engine.reset.BUSY = false ∧ Engine.reset.DONE = false ∧ Engine.reset.PRIME = false ∧
  Engine.reset.NOINV = false ∧ Engine.reset.XNEG = false ∧ Engine.reset.YNEG = false ∧ Engine.reset.WERR = false ∧
  Engine.reset.ERR = 0 ∧ Engine.reset.FAILIDX = 0 ∧ Engine.reset.CMDL = 0 ∧ Engine.reset.irq = false ∧
  ctrlWord Engine.reset = 0 ∧ statusWord Engine.reset = 0 ∧
  (∀ c, (idWord c).toNat = 0x4D45 * 2 ^ 16 + c.nl % 2 ^ 8 * 2 ^ 8 + 0x01) ∧
  State.reset.engine = Engine.reset ∧ core.reset = State.reset ∧
  (∀ (s : State) (rest : List Arrival), s.inbox = .hardwareReset :: rest →
    step s = .next { s with inbox := rest, engine := Engine.reset }) ∧
  (∀ (s : State) (rest : List Arrival) (w : Word), s.inbox = w32 s.cfg 0x004 w :: rest → w.getLsbD 1 = true →
    step s = .next { s with inbox := rest, engine := Engine.reset })

/-- R203: after a reset every operand is 0, and each command issued on those values is defined. -/
def Obligations.CommandsOnResetValues : Prop :=
  (∀ k, Engine.reset.reg k = 0) ∧
  ∀ (s : State) (rd rs1 rs2 rs3 : RegIdx), (∀ k, s.engine.reg k = 0) →
    exec (.modexp rd rs1 rs2 rs3) s = .next (s.afterError 2) ∧
    exec (.montmul rd rs1 rs2 rs3) s = .next (s.afterError 2) ∧
    exec (.barrett rd rs1 rs2 rs3) s = .next (s.afterError 2) ∧
    exec (.fermat rd rs1) s = .next (s.afterError 4) ∧
    exec (.egcd rs1 rs2) s = .next (s.afterOk
      { s.engine with G := 0, CX := 1, XNEG := false, CY := 0, YNEG := false } false false 0) ∧
    exec (.modinv rd rs1 rs2) s = .next (s.afterOk
      { s.engine with R := s.engine.R.set rd.val 0, G := 0, CX := 1, XNEG := false, CY := 0, YNEG := false } false true 0)

/-- R22: an operand register changes only when the host writes one of its limbs while the engine is idle, when a command that names it
as its destination completes without error, or at a reset. -/
def Obligations.OperandRegistersChangeOnlyBy : Prop :=
  ∀ (s t : State) (k : RegIdx), step s = .next t → t.engine.reg k ≠ s.engine.reg k →
    (s.engine.BUSY = false ∧ ∃ a w j, s.inbox.head? = some a ∧ a.Writes s.cfg w (.operand k j)) ∨
    (s.engine.BUSY = true ∧ ∃ rest i, s.EngineNext rest ∧ decode s.engine.CMDL = .ok i ∧ destOf i = some k ∧
      t.engine.ERR = 0) ∨
    (∃ a, s.inbox.head? = some a ∧ a.Resets s.cfg)

/-- R23: G, CX and CY change only when EGCD or MODINV completes without error, or at a reset. -/
def Obligations.ResultRegistersChangeOnlyBy : Prop :=
  ∀ (s t : State) (r : ResultReg), step s = .next t → t.engine.resultReg r ≠ s.engine.resultReg r →
    (s.engine.BUSY = true ∧ ∃ rest i, s.EngineNext rest ∧ decode s.engine.CMDL = .ok i ∧ isEuclid i = true ∧
      t.engine.ERR = 0) ∨
    (∃ a, s.inbox.head? = some a ∧ a.Resets s.cfg)

/-- R39: WERR is set exactly by a write to CMD or to an operand limb while busy, and cleared only by the host's write of STATUS bit 6
or by a reset. -/
def Obligations.WerrIsSticky : Prop :=
  (∀ (s t : State), step s = .next t →
    (s.engine.WERR = false → t.engine.WERR = true →
      s.engine.BUSY = true ∧ ∃ a w, s.inbox.head? = some a ∧
        (a.Writes s.cfg w .cmd ∨ ∃ i j, a.Writes s.cfg w (.operand i j))) ∧
    (s.engine.WERR = true → t.engine.WERR = false →
      ∃ a, s.inbox.head? = some a ∧
        ((∃ w, a.Writes s.cfg w .status ∧ w.getLsbD 6 = true) ∨ a.Resets s.cfg))) ∧
  (∀ (s : State) (rest : List Arrival) (a : Arrival) (w : Word), s.inbox = a :: rest → s.engine.BUSY = true →
    (a.Writes s.cfg w .cmd ∨ ∃ i j, a.Writes s.cfg w (.operand i j)) →
    ∃ t, step s = .next t ∧ t.engine.WERR = true)

/-- R34: DONE rises at a completion and only there; it falls at an accept, at the host's write of STATUS bit 1, or at a reset; and every
completion sets it and clears BUSY. -/
def Obligations.DoneRule : Prop :=
  (∀ (s t : State), step s = .next t →
    (s.engine.DONE = false → t.engine.DONE = true → s.engine.BUSY = true ∧ ∃ rest, s.EngineNext rest) ∧
    (s.engine.DONE = true → t.engine.DONE = false →
      ∃ a, s.inbox.head? = some a ∧
        ((s.engine.BUSY = false ∧ ∃ w, a.Writes s.cfg w .cmd) ∨ (∃ w, a.Writes s.cfg w .status ∧ w.getLsbD 1 = true) ∨
          a.Resets s.cfg))) ∧
  (∀ (s : State) (rest : List Arrival), s.EngineNext rest → s.engine.BUSY = true →
    ∃ t, step s = .next t ∧ t.engine.DONE = true ∧ t.engine.BUSY = false ∧ t.inbox = rest)

/-- R47: irq is IE and DONE; it rises only when a completion sets DONE while IE = 1, or when the host sets IE while DONE = 1; it falls
only when DONE or IE is cleared: by an accept, by the host's write of STATUS bit 1 or of CTRL, or by a reset. -/
def Obligations.InterruptOutput : Prop :=
  ∀ (s t : State), step s = .next t →
    (t.engine.irq = true ↔ t.engine.IE = true ∧ t.engine.DONE = true) ∧
    (s.engine.irq = false → t.engine.irq = true →
      (s.engine.BUSY = true ∧ s.engine.IE = true ∧ ∃ rest, s.EngineNext rest) ∨
      (s.engine.DONE = true ∧ ∃ a w, s.inbox.head? = some a ∧ a.Writes s.cfg w .ctrl ∧ w.getLsbD 0 = true ∧
        w.getLsbD 1 = false)) ∧
    (s.engine.irq = true → t.engine.irq = false →
      ∃ a, s.inbox.head? = some a ∧
        ((s.engine.BUSY = false ∧ ∃ w, a.Writes s.cfg w .cmd) ∨ (∃ w, a.Writes s.cfg w .status ∧ w.getLsbD 1 = true) ∨
          (∃ w, a.Writes s.cfg w .ctrl ∧ w.getLsbD 0 = false) ∨ a.Resets s.cfg))

/-- R49: OPW and BASE are parameters: no step writes them. -/
def Obligations.ParametersNeverChange : Prop :=
  ∀ s t : State, step s = .next t → t.cfg = s.cfg

/-- The invariant holds right after reset. The reference parameters are the model's choice of BASE (log entry 1). -/
def Obligations.ResetMeetsInvariant : Prop := State.reset.Inv

/-- Every step keeps the invariant: registers below 2^OPW (R12), codes and indexes in range (R40, R41), BUSY and DONE never together
(R33, R34), the flags of one completion consistent (R35, R43), no negative zero (R24). -/
def Obligations.StepKeepsInvariant : Prop :=
  ∀ s t : State, s.Inv → step s = .next t → t.Inv

/-! ### The host's WAIT -/

/-- R93 and R223: WAIT. With DONE = 1 it takes one read of STATUS. With a command running it reads STATUS so many times, the
command completes, and one more read ends it, for every number of reads (log entry 17). With no command running and DONE = 0 it
hangs: after any number of steps the host has read STATUS that many times, still waits, and nothing else has changed. -/
def Obligations.WaitEndsOrHangs : Prop :=
  ∀ (s : State) (polls : Nat) (rest : List Arrival), s.inbox = .waitDone polls :: rest →
    (s.engine.DONE = true →
      step s = .next { s with inbox := rest, reads := ⟨0x008, statusWord s.engine⟩ :: s.reads }) ∧
    (s.engine.DONE = false → s.engine.BUSY = true →
      ∃ u t : State, completeCommand s = .next u ∧ run (polls + 3) s = .next t ∧
        t = { s with
          inbox := rest, engine := u.engine,
          reads := ⟨0x008, statusWord u.engine⟩ ::
            (List.replicate (polls + 1) ⟨0x008, statusWord s.engine⟩ ++ s.reads) }) ∧
    (s.engine.DONE = false → s.engine.BUSY = false →
      ∀ n : Nat, run n s =
        .next ({ s with reads := List.replicate n ⟨0x008, statusWord s.engine⟩ ++ s.reads } : State))
end

