-- ==== Sys2Proof/Laws/Encoding.lean ====
section
/-! SUPPORT. Cutting a word into its fields and putting it together again. -/

namespace Sys2Proof

theorem field_lt (w : Word) (hi lo : Nat) : field w hi lo < 2 ^ (hi + 1 - lo) := Nat.mod_lt _ (by positivity)

/-- A field record is read back from its word (R81). -/
theorem fieldsOf_wordOf (f : CmdFields) : fieldsOf (wordOf f) = f := by
  obtain ⟨op, a, rd, b, r1, c, r2, d, r3, g⟩ := f
  have := op.isLt; have := a.isLt; have := rd.isLt; have := b.isLt; have := r1.isLt
  have := c.isLt; have := r2.isLt; have := d.isLt; have := r3.isLt; have := g.isLt
  simp only [fieldsOf, wordOf, field, BitVec.toNat_ofNat, CmdFields.mk.injEq, Fin.ext_iff, Fin.val_ofNat]
  refine ⟨?_, ?_, ?_, ?_, ?_, ?_, ?_, ?_, ?_, ?_⟩ <;> omega

/-- The ten fields are all of a word: no bit lies outside them (R81). -/
theorem wordOf_fieldsOf (w : Word) : wordOf (fieldsOf w) = w := by
  apply BitVec.eq_of_toNat_eq
  have := w.isLt
  simp only [fieldsOf, wordOf, field, BitVec.toNat_ofNat, Fin.val_ofNat]
  omega

/-- Two words with the same fields are the same word. -/
theorem fieldsOf_injective (w w' : Word) (h : fieldsOf w = fieldsOf w') : w = w' := by
  rw [← wordOf_fieldsOf w, ← wordOf_fieldsOf w', h]

/-- A field record decodes exactly when it is legal (R88). -/
theorem decodeFields_ok_iff (f : CmdFields) : (∃ i, decodeFields f = .ok i) ↔ f.legal = true := by
  obtain ⟨op, a, rd, b, r1, c, r2, d, r3, g⟩ := f
  unfold decodeFields CmdFields.legal CmdFields.opcodeAssigned
  split
  · next hres =>
    simp only [hres, Bool.true_and, CmdFields.unusedZero]
    split <;> try simp_all
    all_goals first | omega | (split <;> simp_all)
  · next hres => simp [hres]

end Sys2Proof
end

