-- ==== Sys2Proof/Laws/Limb.lean ====
section
/-! SUPPORT. Limbs of a value: what one limb reads after another was written (R54, R62). -/

namespace Sys2Proof.Machine

/-- Writing a limb keeps the value below any width that holds the limb. -/
theorem setLimb_lt (v j : Nat) (w : Word) (n : Nat) (hj : j < n) (hv : v < 2 ^ (32 * n)) :
    setLimb v j w < 2 ^ (32 * n) := by
  obtain ⟨k, rfl⟩ : ∃ k, n = j + 1 + k := ⟨n - (j + 1), by omega⟩
  have hA : 0 < 2 ^ (32 * j) := by positivity
  have hw : w.toNat < 2 ^ 32 := w.isLt
  have hlow := Nat.mod_lt v hA
  have e1 : 2 ^ (32 * (j + 1)) = 2 ^ (32 * j) * 2 ^ 32 := by rw [← pow_add]; ring_nf
  have e2 : 2 ^ (32 * (j + 1 + k)) = 2 ^ (32 * (j + 1)) * 2 ^ (32 * k) := by rw [← pow_add]; ring_nf
  have hq : v / 2 ^ (32 * (j + 1)) < 2 ^ (32 * k) := by
    rw [Nat.div_lt_iff_lt_mul (by positivity), mul_comm, ← e2]; exact hv
  have hq' : (v / 2 ^ (32 * (j + 1)) + 1) * 2 ^ (32 * (j + 1)) ≤ 2 ^ (32 * (j + 1 + k)) := by
    rw [e2, mul_comm]; exact Nat.mul_le_mul_left _ hq
  have hw' : (w.toNat + 1) * 2 ^ (32 * j) ≤ 2 ^ (32 * (j + 1)) := by
    rw [e1, mul_comm]; exact Nat.mul_le_mul_left _ hw
  unfold setLimb
  rw [add_mul] at hq' hw'
  omega

theorem limb_toNat (v j : Nat) : (limb v j).toNat = v / 2 ^ (32 * j) % 2 ^ 32 := by
  simp [limb]

/-- A limb depends only on the value's bits below its upper end. -/
theorem limb_eq_mod_div (v k : Nat) : (limb v k).toNat = v % 2 ^ (32 * (k + 1)) / 2 ^ (32 * k) := by
  rw [limb_toNat, show 2 ^ (32 * (k + 1)) = 2 ^ (32 * k) * 2 ^ 32 by rw [← pow_add]; ring_nf, Nat.mod_mul_right_div_self]

/-- A limb reads back what was written to it. -/
theorem limb_setLimb_same (v j : Nat) (w : Word) : limb (setLimb v j w) j = w := by
  have hA : 0 < 2 ^ (32 * j) := by positivity
  have e1 : 2 ^ (32 * (j + 1)) = 2 ^ (32 * j) * 2 ^ 32 := by rw [← pow_add]; ring_nf
  apply BitVec.eq_of_toNat_eq
  have : setLimb v j w = v % 2 ^ (32 * j) + 2 ^ (32 * j) * (w.toNat + 2 ^ 32 * (v / 2 ^ (32 * (j + 1)))) := by
    rw [setLimb, e1]; ring
  rw [limb_toNat, this, Nat.add_mul_div_left _ _ hA, Nat.div_eq_of_lt (Nat.mod_lt _ hA), Nat.zero_add,
    Nat.add_mul_mod_self_left, Nat.mod_eq_of_lt w.isLt]

/-- Writing a limb leaves every other limb alone. -/
theorem limb_setLimb_other (v j k : Nat) (w : Word) (h : k ≠ j) : limb (setLimb v j w) k = limb v k := by
  have e1 : 2 ^ (32 * (j + 1)) = 2 ^ (32 * j) * 2 ^ 32 := by rw [← pow_add]; ring_nf
  apply BitVec.eq_of_toNat_eq
  rcases Nat.lt_or_gt_of_ne h with hlt | hgt
  · obtain ⟨d, rfl⟩ : ∃ d, j = k + 1 + d := ⟨j - (k + 1), by omega⟩
    have hA : 2 ^ (32 * (k + 1 + d)) = 2 ^ (32 * (k + 1)) * 2 ^ (32 * d) := by rw [← pow_add]; ring_nf
    rw [limb_eq_mod_div, limb_eq_mod_div]
    have : setLimb v (k + 1 + d) w =
        v % 2 ^ (32 * (k + 1 + d)) +
          2 ^ (32 * (k + 1)) * (2 ^ (32 * d) * (w.toNat + 2 ^ 32 * (v / 2 ^ (32 * (k + 1 + d + 1))))) := by
      rw [setLimb, e1, hA]; ring
    rw [this, Nat.add_mul_mod_self_left, hA, Nat.mod_mul_right_mod]
  · obtain ⟨d, rfl⟩ : ∃ d, k = j + 1 + d := ⟨k - (j + 1), by omega⟩
    have hB : 2 ^ (32 * (j + 1 + d)) = 2 ^ (32 * (j + 1)) * 2 ^ (32 * d) := by rw [← pow_add]; ring_nf
    have hlow : v % 2 ^ (32 * j) + w.toNat * 2 ^ (32 * j) < 2 ^ (32 * (j + 1)) := by
      have := Nat.mod_lt v (show 0 < 2 ^ (32 * j) by positivity)
      have : (w.toNat + 1) * 2 ^ (32 * j) ≤ 2 ^ 32 * 2 ^ (32 * j) := Nat.mul_le_mul_right _ w.isLt
      rw [e1, mul_comm (2 ^ (32 * j)) (2 ^ 32)]
      rw [add_mul] at this
      omega
    have : setLimb v j w / 2 ^ (32 * (j + 1)) = v / 2 ^ (32 * (j + 1)) := by
      rw [setLimb, Nat.add_mul_div_right _ _ (by positivity), Nat.div_eq_of_lt hlow, Nat.zero_add]
    rw [limb_toNat, limb_toNat, hB, ← Nat.div_div_eq_div_mul, ← Nat.div_div_eq_div_mul, this]

/-- A value is the sum of its limbs: cut off at a limb, it is the part below plus that limb (R62). -/
theorem mod_limb_succ (v j : Nat) :
    v % 2 ^ (32 * (j + 1)) = v % 2 ^ (32 * j) + (limb v j).toNat * 2 ^ (32 * j) := by
  have e1 : 2 ^ (32 * (j + 1)) = 2 ^ (32 * j) * 2 ^ 32 := by rw [← pow_add]; ring_nf
  rw [limb_toNat, e1, Nat.mod_mul, mul_comm (2 ^ (32 * j))]

end Sys2Proof.Machine
end

