-- ==== Sys2Proof/Laws/Number.lean ====
section
/-! SUPPORT. What the number theory of the commands computes: each runnable function has the value its rule writes. -/

namespace Sys2Proof.Machine

theorem powModFuel_eq (m fuel a e : Nat) (h : e < 2 ^ fuel) : powModFuel m fuel a e = a ^ e % m := by
  induction fuel generalizing a e with
  | zero =>
    have : e = 0 := by simpa using h
    simp [powModFuel, this]
  | succ fuel ih =>
    have hhalf : e / 2 < 2 ^ fuel := by rw [pow_succ] at h; omega
    have hsq : powModFuel m fuel (a * a % m) (e / 2) = (a * a) ^ (e / 2) % m := by
      rw [ih _ _ hhalf, ← Nat.pow_mod]
    rcases Nat.eq_zero_or_pos e with rfl | hpos
    · simp [powModFuel]
    · have hsplit : a ^ e = (a * a) ^ (e / 2) * a ^ (e % 2) := by
        rw [← pow_two, ← pow_mul, ← pow_add, Nat.div_add_mod]
      simp only [powModFuel, hpos.ne', if_false, hsq]
      rcases Nat.mod_two_eq_zero_or_one e with he | he
      · simp [he, hsplit]
      · simp [he, hsplit, mul_comm]

/-- MODEXP's value is the exact power reduced (R102). -/
theorem powMod_eq (a e m : Nat) : powMod a e m = a ^ e % m := by
  rw [powMod, powModFuel_eq _ _ _ _ Nat.lt_log2_self, ← Nat.pow_mod]

theorem egFuel_zero_right (fuel a : Nat) : egFuel fuel a 0 = (a, 1, 0) := by
  cases fuel <;> simp [egFuel]

theorem egFuel_succ (fuel a b : Nat) (hb : 0 < b) :
    egFuel (fuel + 1) a b =
      ((egFuel fuel b (a % b)).1, (egFuel fuel b (a % b)).2.2,
        (egFuel fuel b (a % b)).2.1 - ((a / b : Nat) : Int) * (egFuel fuel b (a % b)).2.2) := by
  simp [egFuel, hb.ne']

/-- Two steps of the remainder sequence more than halve it. -/
theorem mod_mod_lt_half (b r : Nat) (hr : 0 < r) (h : r < b) : 2 * (b % r) < b := by
  have := Nat.div_add_mod b r
  have hlt := Nat.mod_lt b hr
  have hq : 1 ≤ b / r := Nat.div_pos h.le hr
  have : r ≤ r * (b / r) := Nat.le_mul_of_pos_right r hq
  omega

/-- The depth bound does not matter once it is twice the bit length of b. -/
theorem egFuel_stable (k : Nat) : ∀ a b n m, b < 2 ^ k → 2 * k ≤ n → 2 * k ≤ m → egFuel n a b = egFuel m a b := by
  induction k with
  | zero =>
    intro a b n m hb _ _
    obtain rfl : b = 0 := by simpa using hb
    simp [egFuel_zero_right]
  | succ k ih =>
    intro a b n m hb hn hm
    rcases Nat.eq_zero_or_pos b with rfl | hbpos
    · simp [egFuel_zero_right]
    obtain ⟨n, rfl⟩ : ∃ n', n = n' + 2 := ⟨n - 2, by omega⟩
    obtain ⟨m, rfl⟩ : ∃ m', m = m' + 2 := ⟨m - 2, by omega⟩
    have inner : egFuel (n + 1) b (a % b) = egFuel (m + 1) b (a % b) := by
      rcases Nat.eq_zero_or_pos (a % b) with h0 | hr
      · rw [h0, egFuel_zero_right, egFuel_zero_right]
      · have hhalf := mod_mod_lt_half b (a % b) hr (Nat.mod_lt _ hbpos)
        have : b % (a % b) < 2 ^ k := by rw [pow_succ] at hb; omega
        rw [egFuel_succ _ _ _ hr, egFuel_succ _ _ _ hr, ih _ _ n m this (by omega) (by omega)]
    rw [egFuel_succ _ _ _ hbpos, egFuel_succ _ _ _ hbpos, inner]

/-- R151, base case: `EG(a, 0) = (a, 1, 0)`. -/
@[simp] theorem EG_zero (a : Nat) : EG a 0 = (a, 1, 0) := egFuel_zero_right _ _

/-- R151, recursion: `EG(a, b) = let (g, x1, y1) = EG(b, a mod b) in (g, y1, x1 − (a / b) * y1)` for b > 0. -/
theorem EG_pos (a b : Nat) (hb : 0 < b) :
    EG a b = ((EG b (a % b)).1, (EG b (a % b)).2.2,
      (EG b (a % b)).2.1 - ((a / b : Nat) : Int) * (EG b (a % b)).2.2) := by
  have inner : egFuel (2 * b.log2 + 2) b (a % b) = EG b (a % b) := by
    refine egFuel_stable ((a % b).log2 + 1) _ _ _ _ Nat.lt_log2_self ?_ (by omega)
    have : (a % b).log2 ≤ b.log2 := by
      rw [Nat.log2_eq_log_two, Nat.log2_eq_log_two]; exact Nat.log_mono_right (Nat.mod_lt _ hb).le
    omega
  rw [← inner]
  exact egFuel_succ _ _ _ hb

/-- g is the gcd, with gcd(0, 0) = 0 (R152). -/
theorem EG_gcd (a b : Nat) : (EG a b).1 = Nat.gcd a b := by
  induction b using Nat.strong_induction_on generalizing a with
  | _ b ih =>
    rcases Nat.eq_zero_or_pos b with rfl | hb
    · simp
    · rw [EG_pos a b hb, Nat.gcd_comm, Nat.gcd_rec, Nat.gcd_comm]
      exact ih _ (Nat.mod_lt _ hb) b

/-- `a·x + b·y = g` (R152). -/
theorem EG_bezout (a b : Nat) : (a : Int) * (EG a b).2.1 + b * (EG a b).2.2 = (EG a b).1 := by
  induction b using Nat.strong_induction_on generalizing a with
  | _ b ih =>
    rcases Nat.eq_zero_or_pos b with rfl | hb
    · simp
    · have h := ih _ (Nat.mod_lt a hb) b
      have hdiv : (a : Int) = b * ((a / b : Nat) : Int) + ((a % b : Nat) : Int) := by
        exact_mod_cast (Nat.div_add_mod a b).symm
      rw [EG_pos a b hb]
      simp only
      rw [← h]
      generalize (EG b (a % b)).2.1 = x at *
      generalize (EG b (a % b)).2.2 = y at *
      generalize ((a / b : Nat) : Int) = q at *
      rw [hdiv]
      ring

theorem inv_lt (r m : Nat) (hm : 0 < m) : inv r m < m := by
  have h1 := Int.emod_nonneg (EG r m).2.1 (by omega : (m : Int) ≠ 0)
  have h2 := Int.emod_lt_of_pos (EG r m).2.1 (by omega : (0 : Int) < m)
  unfold inv
  omega

/-- `inv(r, m)` inverts r modulo m (R15). -/
theorem mul_inv_mod (r m : Nat) (hm : 1 < m) (h : Nat.gcd r m = 1) : r * inv r m % m = 1 := by
  have hb := EG_bezout r m
  rw [EG_gcd, h] at hb
  have hnn := Int.emod_nonneg (EG r m).2.1 (by omega : (m : Int) ≠ 0)
  have key : ((r * inv r m % m : Nat) : Int) = 1 := by
    push_cast
    rw [inv, Int.toNat_of_nonneg hnn, Int.mul_emod, Int.emod_emod_of_dvd _ (dvd_refl _), ← Int.mul_emod]
    have : (r : Int) * (EG r m).2.1 = 1 - m * (EG r m).2.2 := by push_cast at hb; linarith
    rw [this, Int.sub_mul_emod_self_left]
    exact Int.emod_eq_of_lt (by omega) (by omega)
  exact_mod_cast key

/-- The walk stops at the first probe whose residue is not 1. -/
theorem fermatScan_cons (n p i : Nat) (ps : List Nat) :
    fermatScan n (p :: ps) i =
      if p ^ (n - 1) % n = 1 then fermatScan n ps (i + 1) else (i, p ^ (n - 1) % n) := by
  simp [fermatScan, powMod_eq]

/-- The walk passes every probe whose residue is 1. -/
theorem fermatScan_append (n i : Nat) (qs ps : List Nat) (h : ∀ q ∈ qs, q ^ (n - 1) % n = 1) :
    fermatScan n (qs ++ ps) i = fermatScan n ps (i + qs.length) := by
  induction qs generalizing i with
  | nil => simp
  | cons q qs ih =>
    rw [List.cons_append, fermatScan_cons, if_pos (h q (by simp)), ih _ (fun q' hq' => h q' (by simp [hq']))]
    simp [Nat.add_comm, Nat.add_left_comm]

end Sys2Proof.Machine
end

