-- ==== Sys2Proof/Laws/State.lean ====
section
/-! SUPPORT. One lemma per field and update of the engine, so that no later proof unfolds a record update. -/

namespace Sys2Proof.Machine

section setReg
variable (e : Engine) (i : RegIdx) (v : Nat)
@[simp] theorem Engine.setReg_R : (e.setReg i v).R = e.R.set i.val v := rfl
@[simp] theorem Engine.setReg_G : (e.setReg i v).G = e.G := rfl
@[simp] theorem Engine.setReg_CX : (e.setReg i v).CX = e.CX := rfl
@[simp] theorem Engine.setReg_CY : (e.setReg i v).CY = e.CY := rfl
@[simp] theorem Engine.setReg_IE : (e.setReg i v).IE = e.IE := rfl
@[simp] theorem Engine.setReg_BUSY : (e.setReg i v).BUSY = e.BUSY := rfl
@[simp] theorem Engine.setReg_DONE : (e.setReg i v).DONE = e.DONE := rfl
@[simp] theorem Engine.setReg_PRIME : (e.setReg i v).PRIME = e.PRIME := rfl
@[simp] theorem Engine.setReg_NOINV : (e.setReg i v).NOINV = e.NOINV := rfl
@[simp] theorem Engine.setReg_XNEG : (e.setReg i v).XNEG = e.XNEG := rfl
@[simp] theorem Engine.setReg_YNEG : (e.setReg i v).YNEG = e.YNEG := rfl
@[simp] theorem Engine.setReg_WERR : (e.setReg i v).WERR = e.WERR := rfl
@[simp] theorem Engine.setReg_ERR : (e.setReg i v).ERR = e.ERR := rfl
@[simp] theorem Engine.setReg_FAILIDX : (e.setReg i v).FAILIDX = e.FAILIDX := rfl
@[simp] theorem Engine.setReg_CMDL : (e.setReg i v).CMDL = e.CMDL := rfl
@[simp] theorem Engine.setReg_resultReg (r : ResultReg) : (e.setReg i v).resultReg r = e.resultReg r := by cases r <;> rfl
end setReg

section setTriple
variable (e : Engine) (g : Nat) (x y : Int)
@[simp] theorem Engine.setTriple_R : (e.setTriple g x y).R = e.R := rfl
@[simp] theorem Engine.setTriple_G : (e.setTriple g x y).G = g := rfl
@[simp] theorem Engine.setTriple_CX : (e.setTriple g x y).CX = x.natAbs := rfl
@[simp] theorem Engine.setTriple_CY : (e.setTriple g x y).CY = y.natAbs := rfl
@[simp] theorem Engine.setTriple_IE : (e.setTriple g x y).IE = e.IE := rfl
@[simp] theorem Engine.setTriple_BUSY : (e.setTriple g x y).BUSY = e.BUSY := rfl
@[simp] theorem Engine.setTriple_DONE : (e.setTriple g x y).DONE = e.DONE := rfl
@[simp] theorem Engine.setTriple_PRIME : (e.setTriple g x y).PRIME = e.PRIME := rfl
@[simp] theorem Engine.setTriple_NOINV : (e.setTriple g x y).NOINV = e.NOINV := rfl
@[simp] theorem Engine.setTriple_XNEG : (e.setTriple g x y).XNEG = decide (x < 0) := rfl
@[simp] theorem Engine.setTriple_YNEG : (e.setTriple g x y).YNEG = decide (y < 0) := rfl
@[simp] theorem Engine.setTriple_WERR : (e.setTriple g x y).WERR = e.WERR := rfl
@[simp] theorem Engine.setTriple_ERR : (e.setTriple g x y).ERR = e.ERR := rfl
@[simp] theorem Engine.setTriple_FAILIDX : (e.setTriple g x y).FAILIDX = e.FAILIDX := rfl
@[simp] theorem Engine.setTriple_CMDL : (e.setTriple g x y).CMDL = e.CMDL := rfl
@[simp] theorem Engine.setTriple_reg (k : RegIdx) : (e.setTriple g x y).reg k = e.reg k := rfl
end setTriple

section acknowledge
variable (e : Engine) (w : Word)
@[simp] theorem Engine.acknowledge_R : (e.acknowledge w).R = e.R := rfl
@[simp] theorem Engine.acknowledge_G : (e.acknowledge w).G = e.G := rfl
@[simp] theorem Engine.acknowledge_CX : (e.acknowledge w).CX = e.CX := rfl
@[simp] theorem Engine.acknowledge_CY : (e.acknowledge w).CY = e.CY := rfl
@[simp] theorem Engine.acknowledge_IE : (e.acknowledge w).IE = e.IE := rfl
@[simp] theorem Engine.acknowledge_BUSY : (e.acknowledge w).BUSY = e.BUSY := rfl
@[simp] theorem Engine.acknowledge_DONE : (e.acknowledge w).DONE = (e.DONE && !bitSet w 1) := rfl
@[simp] theorem Engine.acknowledge_PRIME : (e.acknowledge w).PRIME = e.PRIME := rfl
@[simp] theorem Engine.acknowledge_NOINV : (e.acknowledge w).NOINV = e.NOINV := rfl
@[simp] theorem Engine.acknowledge_XNEG : (e.acknowledge w).XNEG = e.XNEG := rfl
@[simp] theorem Engine.acknowledge_YNEG : (e.acknowledge w).YNEG = e.YNEG := rfl
@[simp] theorem Engine.acknowledge_WERR : (e.acknowledge w).WERR = (e.WERR && !bitSet w 6) := rfl
@[simp] theorem Engine.acknowledge_ERR : (e.acknowledge w).ERR = e.ERR := rfl
@[simp] theorem Engine.acknowledge_FAILIDX : (e.acknowledge w).FAILIDX = e.FAILIDX := rfl
@[simp] theorem Engine.acknowledge_CMDL : (e.acknowledge w).CMDL = e.CMDL := rfl
@[simp] theorem Engine.acknowledge_reg (k : RegIdx) : (e.acknowledge w).reg k = e.reg k := rfl
@[simp] theorem Engine.acknowledge_resultReg (r : ResultReg) : (e.acknowledge w).resultReg r = e.resultReg r := by cases r <;> rfl
end acknowledge

section dropWrite
variable (e : Engine)
@[simp] theorem Engine.dropWrite_R : (e.dropWrite).R = e.R := rfl
@[simp] theorem Engine.dropWrite_G : (e.dropWrite).G = e.G := rfl
@[simp] theorem Engine.dropWrite_CX : (e.dropWrite).CX = e.CX := rfl
@[simp] theorem Engine.dropWrite_CY : (e.dropWrite).CY = e.CY := rfl
@[simp] theorem Engine.dropWrite_IE : (e.dropWrite).IE = e.IE := rfl
@[simp] theorem Engine.dropWrite_BUSY : (e.dropWrite).BUSY = e.BUSY := rfl
@[simp] theorem Engine.dropWrite_DONE : (e.dropWrite).DONE = e.DONE := rfl
@[simp] theorem Engine.dropWrite_PRIME : (e.dropWrite).PRIME = e.PRIME := rfl
@[simp] theorem Engine.dropWrite_NOINV : (e.dropWrite).NOINV = e.NOINV := rfl
@[simp] theorem Engine.dropWrite_XNEG : (e.dropWrite).XNEG = e.XNEG := rfl
@[simp] theorem Engine.dropWrite_YNEG : (e.dropWrite).YNEG = e.YNEG := rfl
@[simp] theorem Engine.dropWrite_WERR : (e.dropWrite).WERR = true := rfl
@[simp] theorem Engine.dropWrite_ERR : (e.dropWrite).ERR = e.ERR := rfl
@[simp] theorem Engine.dropWrite_FAILIDX : (e.dropWrite).FAILIDX = e.FAILIDX := rfl
@[simp] theorem Engine.dropWrite_CMDL : (e.dropWrite).CMDL = e.CMDL := rfl
@[simp] theorem Engine.dropWrite_reg (k : RegIdx) : (e.dropWrite).reg k = e.reg k := rfl
@[simp] theorem Engine.dropWrite_resultReg (r : ResultReg) : (e.dropWrite).resultReg r = e.resultReg r := by cases r <;> rfl
end dropWrite

section complete
variable (e : Engine) (err : Fin 16) (p n : Bool) (idx : Fin 16)
@[simp] theorem Engine.complete_R : (e.complete err p n idx).R = e.R := rfl
@[simp] theorem Engine.complete_G : (e.complete err p n idx).G = e.G := rfl
@[simp] theorem Engine.complete_CX : (e.complete err p n idx).CX = e.CX := rfl
@[simp] theorem Engine.complete_CY : (e.complete err p n idx).CY = e.CY := rfl
@[simp] theorem Engine.complete_IE : (e.complete err p n idx).IE = e.IE := rfl
@[simp] theorem Engine.complete_BUSY : (e.complete err p n idx).BUSY = false := rfl
@[simp] theorem Engine.complete_DONE : (e.complete err p n idx).DONE = true := rfl
@[simp] theorem Engine.complete_PRIME : (e.complete err p n idx).PRIME = p := rfl
@[simp] theorem Engine.complete_NOINV : (e.complete err p n idx).NOINV = n := rfl
@[simp] theorem Engine.complete_XNEG : (e.complete err p n idx).XNEG = e.XNEG := rfl
@[simp] theorem Engine.complete_YNEG : (e.complete err p n idx).YNEG = e.YNEG := rfl
@[simp] theorem Engine.complete_WERR : (e.complete err p n idx).WERR = e.WERR := rfl
@[simp] theorem Engine.complete_ERR : (e.complete err p n idx).ERR = err := rfl
@[simp] theorem Engine.complete_FAILIDX : (e.complete err p n idx).FAILIDX = idx := rfl
@[simp] theorem Engine.complete_CMDL : (e.complete err p n idx).CMDL = e.CMDL := rfl
@[simp] theorem Engine.complete_reg (k : RegIdx) : (e.complete err p n idx).reg k = e.reg k := rfl
@[simp] theorem Engine.complete_resultReg (r : ResultReg) : (e.complete err p n idx).resultReg r = e.resultReg r := by cases r <;> rfl
end complete

section accept
variable (e : Engine) (w : Word)
@[simp] theorem Engine.accept_R : (e.accept w).R = e.R := rfl
@[simp] theorem Engine.accept_G : (e.accept w).G = e.G := rfl
@[simp] theorem Engine.accept_CX : (e.accept w).CX = e.CX := rfl
@[simp] theorem Engine.accept_CY : (e.accept w).CY = e.CY := rfl
@[simp] theorem Engine.accept_IE : (e.accept w).IE = e.IE := rfl
@[simp] theorem Engine.accept_BUSY : (e.accept w).BUSY = true := rfl
@[simp] theorem Engine.accept_DONE : (e.accept w).DONE = false := rfl
@[simp] theorem Engine.accept_PRIME : (e.accept w).PRIME = e.PRIME := rfl
@[simp] theorem Engine.accept_NOINV : (e.accept w).NOINV = e.NOINV := rfl
@[simp] theorem Engine.accept_XNEG : (e.accept w).XNEG = e.XNEG := rfl
@[simp] theorem Engine.accept_YNEG : (e.accept w).YNEG = e.YNEG := rfl
@[simp] theorem Engine.accept_WERR : (e.accept w).WERR = e.WERR := rfl
@[simp] theorem Engine.accept_ERR : (e.accept w).ERR = e.ERR := rfl
@[simp] theorem Engine.accept_FAILIDX : (e.accept w).FAILIDX = e.FAILIDX := rfl
@[simp] theorem Engine.accept_CMDL : (e.accept w).CMDL = w := rfl
@[simp] theorem Engine.accept_reg (k : RegIdx) : (e.accept w).reg k = e.reg k := rfl
@[simp] theorem Engine.accept_resultReg (r : ResultReg) : (e.accept w).resultReg r = e.resultReg r := by cases r <;> rfl
end accept

section registers
variable (e : Engine) (i k : RegIdx) (v : Nat)

/-- A register reads back what was written to it. -/
@[simp] theorem Engine.reg_setReg_same : (e.setReg i v).reg i = v := by simp [Engine.reg, Engine.setReg]

/-- Writing a register leaves every other one alone. -/
theorem Engine.reg_setReg_other (h : k ≠ i) : (e.setReg i v).reg k = e.reg k := by
  have : i.val ≠ k.val := fun hh => h (Fin.ext hh.symm)
  simp [Engine.reg, Engine.setReg, this]

theorem Engine.reg_setReg : (e.setReg i v).reg k = if k = i then v else e.reg k := by
  split
  · next h => subst h; simp
  · next h => exact e.reg_setReg_other i k v h

/-- A register file is its eight registers. -/
theorem Engine.R_ext (e e' : Engine) (h : ∀ i, e.reg i = e'.reg i) : e.R = e'.R := by
  apply Vector.ext
  intro i hi
  exact h ⟨i, hi⟩

@[simp] theorem Engine.reset_reg : Engine.reset.reg i = 0 := by simp [Engine.reg, Engine.reset]

@[simp] theorem Engine.reset_resultReg (r : ResultReg) : Engine.reset.resultReg r = 0 := by cases r <;> rfl

end registers

section resetEngine
variable (s : State)
@[simp] theorem State.resetEngine_cfg : s.resetEngine.cfg = s.cfg := rfl
@[simp] theorem State.resetEngine_engine : s.resetEngine.engine = Engine.reset := rfl
@[simp] theorem State.resetEngine_inbox : s.resetEngine.inbox = s.inbox := rfl
@[simp] theorem State.resetEngine_reads : s.resetEngine.reads = s.reads := rfl
@[simp] theorem State.resetEngine_draws : s.resetEngine.draws = s.draws := rfl
end resetEngine

end Sys2Proof.Machine
end

