-- ==== Sys2Proof/Laws/Step.lean ====
section
/-! SUPPORT. What each shared operation, each meaning and one step can do, said once: the proofs cite these and do not unfold the
definitions again. -/

namespace Sys2Proof.Machine

/-! ### How a command ends -/

theorem raiseError_eq (c : ErrCode) (s : State) : raiseError c s = .next (s.afterError c.code) := rfl

theorem finish_eq (e : Engine) (p n : Bool) (idx : Fin 16) (s : State) : finish e p n idx s = .next (s.afterOk e p n idx) := rfl

theorem finishReg_eq (rd : RegIdx) (v : Nat) (s : State) :
    finishReg rd v s = .next { s with engine := (s.engine.setReg rd v).complete 0 false false 0 } := rfl

/-! ### The meanings, by case -/

section meanings
variable (rd rs1 rs2 rs3 : RegIdx) (s : State)

theorem execModexp_div0 (h : s.engine.reg rs3 = 0) : execModexp rd rs1 rs2 rs3 s = .next (s.afterError 2) := by
  simp [execModexp, h, raiseError_eq, ErrCode.code]

theorem execModexp_ok (h : s.engine.reg rs3 ≠ 0) :
    execModexp rd rs1 rs2 rs3 s = finishReg rd (powMod (s.engine.reg rs1) (s.engine.reg rs2) (s.engine.reg rs3)) s := by
  simp [execModexp, h]

theorem execMontmul_ok (h2 : s.engine.reg rs3 % 2 = 1) (ha : s.engine.reg rs1 < s.engine.reg rs3)
    (hb : s.engine.reg rs2 < s.engine.reg rs3) :
    execMontmul rd rs1 rs2 rs3 s =
      finishReg rd (montProduct s.cfg (s.engine.reg rs1) (s.engine.reg rs2) (s.engine.reg rs3)) s := by
  have h0 : s.engine.reg rs3 ≠ 0 := by omega
  simp [execMontmul, h0, h2, ha, hb]

theorem execBarrett_ok (h : s.engine.reg rs3 ≠ 0) :
    execBarrett rd rs1 rs2 rs3 s =
      finishReg rd ((s.engine.reg rs1 * s.cfg.radix + s.engine.reg rs2) % s.engine.reg rs3) s := by
  simp [execBarrett, h]

theorem execFermat_ok (h : s.engine.reg rs1 ≠ 0) :
    execFermat rd rs1 s =
      finish (s.engine.setReg rd (fermatScan (s.engine.reg rs1) probes 0).2)
        ((fermatScan (s.engine.reg rs1) probes 0).1 == probes.length) false
        (Fin.ofNat 16 (fermatScan (s.engine.reg rs1) probes 0).1) s := by
  simp [execFermat, h]

end meanings

/-- What a command can do: it always answers a next state, in which only the engine has changed; and the engine is the old one
with at most one operand register and the triple written, completed with some code and flags (R43, R100, R176). -/
theorem exec_cases (i : Instr) (s : State) :
    ∃ e err p n idx, exec i s = .next { s with engine := e.complete err p n idx } ∧
      (e = s.engine ∨ (∃ rd v, e = s.engine.setReg rd v) ∨ (∃ g x y, e = s.engine.setTriple g x y) ∨
        ∃ rd v g x y, e = (s.engine.setTriple g x y).setReg rd v) := by
  have err (c : ErrCode) : ∃ e err p n idx,
      raiseError c s = .next { s with engine := e.complete err p n idx } ∧
      (e = s.engine ∨ (∃ rd v, e = s.engine.setReg rd v) ∨ (∃ g x y, e = s.engine.setTriple g x y) ∨
        ∃ rd v g x y, e = (s.engine.setTriple g x y).setReg rd v) := ⟨_, _, _, _, _, rfl, .inl rfl⟩
  cases i with
  | modexp rd a e m =>
    simp only [exec, execModexp]
    split
    · exact err _
    · exact ⟨_, _, _, _, _, rfl, .inr (.inl ⟨_, _, rfl⟩)⟩
  | montmul rd a b m =>
    simp only [exec, execMontmul]
    split
    · exact err _
    split
    · exact err _
    split
    · exact err _
    · exact ⟨_, _, _, _, _, rfl, .inr (.inl ⟨_, _, rfl⟩)⟩
  | barrett rd a b m =>
    simp only [exec, execBarrett]
    split
    · exact err _
    · exact ⟨_, _, _, _, _, rfl, .inr (.inl ⟨_, _, rfl⟩)⟩
  | fermat rd a =>
    simp only [exec, execFermat]
    split
    · exact err _
    · exact ⟨_, _, _, _, _, rfl, .inr (.inl ⟨_, _, rfl⟩)⟩
  | egcd a b => exact ⟨_, _, _, _, _, rfl, .inr (.inr (.inl ⟨_, _, _, rfl⟩))⟩
  | modinv rd a b =>
    simp only [exec, execModinv]
    split
    · exact err _
    split
    · exact ⟨_, _, _, _, _, rfl, .inr (.inr (.inr ⟨_, _, _, _, _, rfl⟩))⟩
    · exact ⟨_, _, _, _, _, rfl, .inr (.inr (.inr ⟨_, _, _, _, _, rfl⟩))⟩

/-- The completion step always answers a next state (R221). -/
theorem completeCommand_next (s : State) : ∃ t, completeCommand s = .next t := by
  unfold completeCommand
  split
  · next i _ => obtain ⟨e, err, p, n, idx, h, _⟩ := exec_cases i s; exact ⟨_, h⟩
  · exact ⟨_, rfl⟩

/-- What a completion leaves alone, and that it ends the command (R34, R43). -/
theorem completeCommand_frame (s t : State) (h : completeCommand s = .next t) :
    t.cfg = s.cfg ∧ t.inbox = s.inbox ∧ t.reads = s.reads ∧ t.draws = s.draws ∧ t.engine.IE = s.engine.IE ∧
      t.engine.WERR = s.engine.WERR ∧ t.engine.CMDL = s.engine.CMDL ∧ t.engine.DONE = true ∧ t.engine.BUSY = false := by
  unfold completeCommand at h
  split at h
  · next i _ =>
    obtain ⟨e, err, p, n, idx, hx, hc⟩ := exec_cases i s
    rw [hx] at h
    cases h
    rcases hc with rfl | ⟨_, _, rfl⟩ | ⟨_, _, _, rfl⟩ | ⟨_, _, _, _, _, rfl⟩ <;> simp
  · cases h
    simp

/-- What a command does to the engine depends on the parameters and the engine alone: the inbox, the words read and the draws have no
part in it and stay as they are. -/
theorem exec_env (i : Instr) (cfg : Config) (eng : Engine) :
    ∃ e, ∀ inbox reads draws, exec i ⟨cfg, eng, inbox, reads, draws⟩ = .next ⟨cfg, e, inbox, reads, draws⟩ := by
  cases i <;> simp only [exec, execModexp, execMontmul, execBarrett, execFermat, execEgcd, execModinv, raiseError,
    finishReg, finish] <;> (try split_ifs) <;> exact ⟨_, fun _ _ _ => rfl⟩

/-- The same of a completion (R46, R70). -/
theorem completeCommand_env (cfg : Config) (eng : Engine) :
    ∃ e, ∀ inbox reads draws,
      completeCommand ⟨cfg, eng, inbox, reads, draws⟩ = .next ⟨cfg, e, inbox, reads, draws⟩ := by
  cases hd : decode eng.CMDL with
  | error r => exact ⟨eng.complete 1 false false 0, fun _ _ _ => by simp only [completeCommand, hd]; rfl⟩
  | ok i =>
    obtain ⟨e, he⟩ := exec_env i cfg eng
    exact ⟨e, fun inbox reads draws => by simp only [completeCommand, hd, he]⟩

theorem engineStep_busy (s : State) (h : s.engine.BUSY = true) : engineStep s = completeCommand s := by
  simp [engineStep, h]

theorem engineStep_idle (s : State) (h : s.engine.BUSY = false) : engineStep s = .next s := by
  simp [engineStep, h]

/-! ### The host's accesses -/

section host
variable (off : Nat) (w : Word) (s : State)

@[simp] theorem hostRead_cfg : (hostRead off s).cfg = s.cfg := by unfold hostRead; split <;> rfl
@[simp] theorem hostRead_engine : (hostRead off s).engine = s.engine := by unfold hostRead; split <;> rfl
@[simp] theorem hostRead_inbox : (hostRead off s).inbox = s.inbox := by unfold hostRead; split <;> rfl
@[simp] theorem hostWrite_cfg : (hostWrite off w s).cfg = s.cfg := rfl
@[simp] theorem hostWrite_engine : (hostWrite off w s).engine = writeSlot s.engine w (slotAt s.cfg off) := rfl
@[simp] theorem hostWrite_inbox : (hostWrite off w s).inbox = s.inbox := rfl
@[simp] theorem hostWrite_reads : (hostWrite off w s).reads = s.reads := rfl
@[simp] theorem hostWrite_draws : (hostWrite off w s).draws = s.draws := rfl

end host

/-- What an access that answers a next state can do: miss the window, read, or write. -/
theorem hostAccess_cases (a : BusAccess) (s t : State) (h : hostAccess a s = .next t) :
    (inWindow s.cfg a.addr = false ∧ t = s) ∨
    (inWindow s.cfg a.addr = true ∧ refusedAccess (a.addr - s.cfg.base) a.size = false ∧ a.kind = .read ∧
      t = hostRead (a.addr - s.cfg.base) s) ∨
    (∃ w, inWindow s.cfg a.addr = true ∧ refusedAccess (a.addr - s.cfg.base) a.size = false ∧ a.kind = .write w ∧
      t = hostWrite (a.addr - s.cfg.base) w s) := by
  obtain ⟨addr, size, kind⟩ := a
  unfold hostAccess at h
  by_cases hin : inWindow s.cfg addr = true
  · simp only [hin, if_true] at h
    by_cases hr : refusedAccess (addr - s.cfg.base) size = true
    · simp [hr] at h
    · simp only [hr, Bool.false_eq_true, if_false] at h
      cases kind with
      | read => exact .inr (.inl ⟨hin, by simpa using hr, rfl, by simpa using h.symm⟩)
      | write w => exact .inr (.inr ⟨w, hin, by simpa using hr, rfl, by simpa using h.symm⟩)
  · simp only [hin, Bool.false_eq_true, if_false] at h
    exact .inl ⟨by simpa using hin, by simpa using h.symm⟩

/-! ### One step -/

/-- What a step that answers a next state did: an idle engine idled, a command completed, an access took effect, the engine was
reset, or the host read STATUS in a WAIT. -/
theorem step_cases (s t : State) (h : step s = .next t) :
    (∃ rest, (s.inbox = [] ∧ rest = [] ∨ s.inbox = .engineTurn :: rest) ∧ s.engine.BUSY = false ∧
      t = { s with inbox := rest }) ∨
    (∃ rest, (s.inbox = [] ∧ rest = [] ∨ s.inbox = .engineTurn :: rest) ∧ s.engine.BUSY = true ∧
      completeCommand { s with inbox := rest } = .next t) ∨
    (∃ a rest, s.inbox = .access a :: rest ∧ hostAccess a { s with inbox := rest } = .next t) ∨
    (∃ rest, s.inbox = .hardwareReset :: rest ∧ t = State.resetEngine { s with inbox := rest }) ∨
    (∃ polls rest, s.inbox = .waitDone polls :: rest ∧ t = hostWait polls rest s) := by
  obtain ⟨cfg, eng, inbox, reads, draws⟩ := s
  unfold step at h
  cases inbox with
  | nil =>
    rcases hb : eng.BUSY with _ | _
    · exact .inl ⟨[], by simp, rfl, by simpa [engineStep, hb] using h.symm⟩
    · exact .inr (.inl ⟨[], by simp, rfl, by simpa [engineStep, hb] using h⟩)
  | cons x rest =>
    cases x with
    | engineTurn =>
      rcases hb : eng.BUSY with _ | _
      · exact .inl ⟨rest, by simp, rfl, by simpa [engineStep, hb] using h.symm⟩
      · exact .inr (.inl ⟨rest, by simp, rfl, by simpa [engineStep, hb] using h⟩)
    | access a => exact .inr (.inr (.inl ⟨a, rest, rfl, h⟩))
    | hardwareReset => exact .inr (.inr (.inr (.inl ⟨rest, rfl, by simpa using h.symm⟩)))
    | waitDone polls => exact .inr (.inr (.inr (.inr ⟨polls, rest, rfl, by simpa using h.symm⟩)))

/-! ### Several steps -/

@[simp] theorem run_zero (s : State) : run 0 s = .next s := rfl

theorem run_succ (k : Nat) (s t : State) (h : step s = .next t) : run (k + 1) s = run k t := by
  simp [run, h]

/-- Running j steps and then k is running j + k. -/
theorem run_add (j k : Nat) (s t : State) (h : run j s = .next t) : run (j + k) s = run k t := by
  induction j generalizing s with
  | zero =>
    obtain rfl : s = t := by simpa [run] using h
    simp
  | succ j ih =>
    cases hs : step s with
    | next u =>
      rw [run_succ j s u hs] at h
      rw [Nat.add_right_comm, run_succ (j + k) s u hs, ih u h]
    | fault r => simp [run, hs] at h
    | refused r => simp [run, hs] at h

/-- `run` is the host's run of the core. -/
theorem run_eq_core_run (k : Nat) (s : State) : run k s = core.run k s := by
  induction k generalizing s with
  | zero => rfl
  | succ k ih =>
    cases h : step s with
    | next t => rw [run_succ k s t h, ih]; simp [Host.Core.run, core, h]
    | fault r => simp [run, Host.Core.run, core, h]
    | refused r => simp [run, Host.Core.run, core, h]

end Sys2Proof.Machine
end

