-- ==== Sys2Proof/Laws/Bus.lean ====
section
/-! SUPPORT. The register window: what each offset is, and what a step does with the host's access to it. -/

namespace Sys2Proof.Machine

/-- Bit i of a word, as a field (R14). -/
theorem bitSet_eq_getLsbD (w : Word) (i : Nat) : bitSet w i = w.getLsbD i := by
  rw [bitSet, field, BitVec.getLsbD, Nat.testBit_eq_decide_div_mod_eq]
  have : i + 1 - i = 1 := by omega
  rw [this]
  rfl

theorem nl_le (c : Config) (h : c.Valid) : c.nl ≤ 64 := by
  unfold Config.nl
  have := h.2.2.1
  omega

theorem opw_eq (c : Config) (h : c.Valid) : c.opw = 32 * c.nl := by
  unfold Config.nl
  have := h.1
  omega

/-! ### What each offset is (R53) -/

@[simp] theorem slotAt_id (c : Config) : slotAt c 0x000 = .id := rfl
@[simp] theorem slotAt_ctrl (c : Config) : slotAt c 0x004 = .ctrl := rfl
@[simp] theorem slotAt_status (c : Config) : slotAt c 0x008 = .status := rfl
@[simp] theorem slotAt_cmd (c : Config) : slotAt c 0x00C = .cmd := rfl

theorem slotAt_operand (c : Config) (i : RegIdx) (j : Nat) (hj : j < c.nl) (h64 : j < 64) :
    slotAt c (0x1000 + 0x100 * i.val + 4 * j) = .operand i j := by
  have hi := i.isLt
  have e1 : (0x1000 + 0x100 * i.val + 4 * j) % 0x100 / 4 = j := by omega
  have e2 : (0x1000 + 0x100 * i.val + 4 * j - 0x1000) / 0x100 = i.val := by omega
  have n1 : ¬ 0x1000 + 0x100 * i.val + 4 * j < 0x10 := by omega
  have n2 : ¬ 0x1000 + 0x100 * i.val + 4 * j < 0x1000 := by omega
  have n3 : 0x1000 + 0x100 * i.val + 4 * j < 0x1800 := by omega
  simp only [slotAt, e1, e2, n1, n2, n3, hj, if_true, if_false, Slot.operand.injEq, and_true]
  exact Fin.ext (by simp)

/-- A limb offset above the operand windows is in a result window. -/
theorem slotAt_of_result_offset (c : Config) (off : Nat) (h : LimbOffset c off) (h18 : 0x1800 ≤ off) :
    slotAt c off =
      .result (resultWindow ((off - 0x1800) / 0x100)) (off % 0x100 / 4) := by
  obtain ⟨h1, h2, h3⟩ := h
  unfold slotAt
  simp only
  rw [if_neg (by omega), if_neg (by omega), if_neg (by omega), if_pos h2, if_pos h3]

/-- A limb offset below the result windows is in an operand window. -/
theorem slotAt_of_operand_offset (c : Config) (off : Nat) (h : LimbOffset c off) (h18 : off < 0x1800) :
    slotAt c off = .operand (Fin.ofNat 8 ((off - 0x1000) / 0x100)) (off % 0x100 / 4) := by
  obtain ⟨h1, h2, h3⟩ := h
  unfold slotAt
  simp only
  rw [if_neg (by omega), if_neg (by omega), if_pos h18, if_pos h3]

theorem slotAt_result (c : Config) (r : ResultReg) (j : Nat) (hj : j < c.nl) (h64 : j < 64) :
    slotAt c (resultOffset r j) = .result r j := by
  have hl : LimbOffset c (resultOffset r j) ∧ 0x1800 ≤ resultOffset r j := by
    cases r <;> simp only [LimbOffset, resultOffset] <;> omega
  rw [slotAt_of_result_offset c _ hl.1 hl.2]
  cases r <;> simp only [resultOffset]
  · rw [show (0x1800 + 4 * j - 0x1800) / 0x100 = 0 by omega, show (0x1800 + 4 * j) % 0x100 / 4 = j by omega]; rfl
  · rw [show (0x1900 + 4 * j - 0x1800) / 0x100 = 1 by omega, show (0x1900 + 4 * j) % 0x100 / 4 = j by omega]; rfl
  · rw [show (0x1A00 + 4 * j - 0x1800) / 0x100 = 2 by omega, show (0x1A00 + 4 * j) % 0x100 / 4 = j by omega]; rfl

theorem slotAt_reserved (c : Config) (off : Nat)
    (h : 0x0010 ≤ off ∧ off < 0x1000 ∨ 0x1B00 ≤ off ∨ (0x1000 ≤ off ∧ c.nl ≤ off % 0x100 / 4)) :
    slotAt c off = .reserved := by
  unfold slotAt
  simp only
  split
  · omega
  split
  · rfl
  split
  · rw [if_neg (by omega)]
  split
  · rw [if_neg (by omega)]
  · rfl

/-- The aligned offsets of the window, sorted by what they are. -/
theorem slotAt_cases (c : Config) (off : Nat) (hal : off % 4 = 0) :
    (off = 0x000 ∧ slotAt c off = .id) ∨ (off = 0x004 ∧ slotAt c off = .ctrl) ∨
    (off = 0x008 ∧ slotAt c off = .status) ∨ (off = 0x00C ∧ slotAt c off = .cmd) ∨
    (LimbOffset c off ∧ off < 0x1800 ∧ ∃ i j, slotAt c off = .operand i j) ∨
    (LimbOffset c off ∧ 0x1800 ≤ off ∧ ∃ r j, slotAt c off = .result r j) ∨
    (0x0010 ≤ off ∧ ¬LimbOffset c off ∧ slotAt c off = .reserved) := by
  by_cases h16 : off < 0x10
  · have : off = 0x0 ∨ off = 0x4 ∨ off = 0x8 ∨ off = 0xC := by omega
    rcases this with rfl | rfl | rfl | rfl <;> simp [LimbOffset]
  · by_cases hl : LimbOffset c off
    · by_cases h18 : off < 0x1800
      · exact .inr (.inr (.inr (.inr (.inl ⟨hl, h18, _, _, slotAt_of_operand_offset c off hl h18⟩))))
      · have h18' : 0x1800 ≤ off := by omega
        exact .inr (.inr (.inr (.inr (.inr (.inl ⟨hl, h18', _, _, slotAt_of_result_offset c off hl h18'⟩)))))
    · refine .inr (.inr (.inr (.inr (.inr (.inr ⟨by omega, hl, slotAt_reserved c off ?_⟩)))))
      simp only [LimbOffset] at hl
      omega

/-! ### What a step does with an access -/

theorem step_engineNext (s : State) (rest : List Arrival) (h : s.EngineNext rest) :
    step s = engineStep { s with inbox := rest } := by
  obtain ⟨cfg, eng, inbox, reads, draws⟩ := s
  rcases h with h | ⟨h, rfl⟩ <;> simp only at h <;> subst h <;> rfl

/-- At the engine's turn a running command completes. -/
theorem step_complete (s : State) (rest : List Arrival) (h : s.EngineNext rest) (hb : s.engine.BUSY = true) :
    step s = completeCommand { s with inbox := rest } := by
  rw [step_engineNext s rest h]
  exact engineStep_busy { s with inbox := rest } hb

/-- At the engine's turn an idle engine does nothing. -/
theorem step_idle (s : State) (rest : List Arrival) (h : s.EngineNext rest) (hb : s.engine.BUSY = false) :
    step s = .next { s with inbox := rest } := by
  rw [step_engineNext s rest h]
  exact engineStep_idle { s with inbox := rest } hb

theorem hostRead_exact (off : Nat) (s : State) (h : s.engine.BUSY = false ∨ (slotAt s.cfg off).isLimb = false) :
    hostRead off s = { s with reads := ⟨off, slotWord s.cfg s.engine (slotAt s.cfg off)⟩ :: s.reads } := by
  rcases h with h | h <;> simp [hostRead, h]

theorem hostRead_draw (off : Nat) (s : State) (hb : s.engine.BUSY = true) (h : (slotAt s.cfg off).isLimb = true) :
    hostRead off s =
      { s with reads := ⟨off, Config.freeDraw s.draws⟩ :: s.reads, draws := s.draws + 1 } := by
  simp [hostRead, hb, h]

section accesses
variable (s : State) (rest : List Arrival) (off : Nat) (hoff : off < 0x2000) (hal : off % 4 = 0)
include hoff hal

/-- A step that carries out a word write of the window. -/
theorem step_w32 (w : Word) (h : s.inbox = w32 s.cfg off w :: rest) :
    step s = .next { s with inbox := rest, engine := writeSlot s.engine w (slotAt s.cfg off) } := by
  simp [step, h, w32, hostAccess, inWindow, refusedAccess, hoff, hal, hostWrite]

theorem step_r32 (h : s.inbox = r32 s.cfg off :: rest) :
    step s = .next (hostRead off { s with inbox := rest }) := by
  simp [step, h, r32, hostAccess, inWindow, refusedAccess, hoff, hal]

/-- A step that carries out a word read of the window, where the read is exact (R212). -/
theorem step_r32_exact (h : s.inbox = r32 s.cfg off :: rest)
    (hx : s.engine.BUSY = false ∨ (slotAt s.cfg off).isLimb = false) :
    step s = .next
      { s with inbox := rest, reads := ⟨off, slotWord s.cfg s.engine (slotAt s.cfg off)⟩ :: s.reads } := by
  rw [step_r32 s rest off hoff hal h, hostRead_exact off { s with inbox := rest } hx]

/-- A step that carries out a word read of a limb while busy (R212). -/
theorem step_r32_draw (h : s.inbox = r32 s.cfg off :: rest) (hb : s.engine.BUSY = true)
    (hl : (slotAt s.cfg off).isLimb = true) :
    step s = .next { s with
      inbox := rest, reads := ⟨off, Config.freeDraw s.draws⟩ :: s.reads, draws := s.draws + 1 } := by
  rw [step_r32 s rest off hoff hal h, hostRead_draw off { s with inbox := rest } hb hl]

end accesses

/-- A write that a step carried out is a write to some slot, in the statements' sense. -/
theorem writes_of_access (c : Config) (a : BusAccess) (w : Word) (hin : inWindow c a.addr = true)
    (hr : refusedAccess (a.addr - c.base) a.size = false) (hk : a.kind = .write w) :
    Arrival.Writes c w (slotAt c (a.addr - c.base)) (.access a) := by
  obtain ⟨addr, size, kind⟩ := a
  simp only [inWindow, Bool.and_eq_true, decide_eq_true_eq] at hin
  simp only [refusedAccess, Bool.or_eq_false_iff, decide_eq_false_iff_not, not_not] at hr
  simp only at hk
  refine ⟨addr - c.base, by omega, hr.2, rfl, ?_⟩
  rw [w32, hr.1, hk, show c.base + (addr - c.base) = addr by omega]

/-- What an access at the head of the inbox did, when the step answered a next state: nothing of the engine, or a write to a slot. -/
theorem step_access (s t : State) (a : BusAccess) (rest : List Arrival) (hi : s.inbox = .access a :: rest)
    (h : step s = .next t) :
    t.cfg = s.cfg ∧ t.inbox = rest ∧
    (t.engine = s.engine ∨
      ∃ w slot, Arrival.Writes s.cfg w slot (.access a) ∧ t.engine = writeSlot s.engine w slot) := by
  have h' : hostAccess a { s with inbox := rest } = .next t := by simpa [step, hi] using h
  rcases hostAccess_cases a _ t h' with ⟨_, rfl⟩ | ⟨_, _, _, rfl⟩ | ⟨w, hin, hr, hk, rfl⟩
  · exact ⟨rfl, rfl, .inl rfl⟩
  · exact ⟨by simp, by simp, .inl (by simp)⟩
  · exact ⟨rfl, rfl, .inr ⟨w, _, writes_of_access s.cfg a w hin hr hk, rfl⟩⟩

/-- A write to CTRL with bit 1 set resets, in the statements' sense. -/
theorem resets_of_writes (c : Config) (a : Arrival) (w : Word) (h : a.Writes c w .ctrl) (hb : bitSet w 1 = true) :
    a.Resets c := by
  obtain ⟨off, _, hal, hs, rfl⟩ := h
  have : off = 0x004 := by
    rcases slotAt_cases c off hal with ⟨_, e⟩ | ⟨h4, _⟩ | ⟨_, e⟩ | ⟨_, e⟩ | ⟨_, _, _, _, e⟩ | ⟨_, _, _, _, e⟩ | ⟨_, _, e⟩
    all_goals first | exact h4 | (rw [hs] at e; cases e)
  subst this
  exact ⟨rfl, rfl, w, rfl, hb⟩

/-! ### The host's WAIT (R93) -/

section wait
variable (polls : Nat) (rest : List Arrival) (s : State)
@[simp] theorem hostWait_cfg : (hostWait polls rest s).cfg = s.cfg := by simp [hostWait]
@[simp] theorem hostWait_engine : (hostWait polls rest s).engine = s.engine := by simp [hostWait]
@[simp] theorem hostWait_draws : (hostWait polls rest s).draws = s.draws := by simp [hostWait, hostRead, Slot.isLimb]
@[simp] theorem hostWait_reads :
    (hostWait polls rest s).reads = ⟨0x008, statusWord s.engine⟩ :: s.reads := by
  simp [hostWait, hostRead, Slot.isLimb, slotWord]

theorem step_wait (h : s.inbox = .waitDone polls :: rest) : step s = .next (hostWait polls rest s) := by simp [step, h]

/-- The WAIT goes on when it reads DONE = 1. -/
theorem hostWait_done (h : s.engine.DONE = true) : (hostWait polls rest s).inbox = rest := by simp [hostWait, h]

/-- With no command running the WAIT stays where it is. -/
theorem hostWait_hang (hd : s.engine.DONE = false) (hb : s.engine.BUSY = false) :
    (hostWait polls rest s).inbox = .waitDone polls :: rest := by simp [hostWait, hd, hb]

/-- While a command runs, the reads before the engine's turn count down. -/
theorem hostWait_busy (hd : s.engine.DONE = false) (hb : s.engine.BUSY = true) :
    (hostWait (polls + 1) rest s).inbox = .waitDone polls :: rest ∧
    (hostWait 0 rest s).inbox = .engineTurn :: .waitDone 0 :: rest := by simp [hostWait, hd, hb]
end wait

/-! ### The recursion of R151 -/

/-- EG solves the recursion of R151. -/
theorem solvesR151_EG : SolvesR151 EG := ⟨EG_zero, fun a b hb => EG_pos a b hb⟩

end Sys2Proof.Machine
end

