-- ==== Sys2Proof/Laws/HostProgram.lean ====
section
/-! SUPPORT. What READ of an idle engine does and gives (R62, R93). -/

namespace Sys2Proof.Machine

/-- The value of the words read, when they are added in front of others. -/
theorem readValue_append (l l' : List HostRead) : readValue (l ++ l') = readValue l + readValue l' := by
  simp [readValue]

/-- The order of the words has no part in their value. -/
theorem readValue_reverse (l : List HostRead) : readValue l.reverse = readValue l := by
  simp [readValue, List.sum_reverse]

/-- The low n limbs of a value, put together, are the value modulo 2^(32n) (R62). -/
theorem sum_limbs (v n : Nat) :
    ((List.range n).map fun j => (limb v j).toNat * 2 ^ (32 * j)).sum = v % 2 ^ (32 * n) := by
  induction n with
  | zero => simp [Nat.mod_one]
  | succ n ih =>
    rw [List.range_succ, List.map_append, List.sum_append, ih, show 32 * (n + 1) = 32 * n + 32 by ring, Nat.pow_add,
      Nat.mod_mul]
    simp [limb, Nat.mul_comm]

/-- Exact reads of a list of offsets, one step each: the words are recorded, the latest first, and nothing else changes. -/
theorem run_r32_list (offs : List Nat) (rest : List Arrival) (s : State) (hb : s.engine.BUSY = false)
    (hoffs : ∀ off ∈ offs, off < 0x2000 ∧ off % 4 = 0) (h : s.inbox = offs.map (r32 s.cfg) ++ rest) :
    run offs.length s = .next ({ s with
      inbox := rest,
      reads := (offs.map fun off => ⟨off, slotWord s.cfg s.engine (slotAt s.cfg off)⟩).reverse ++ s.reads } : State) := by
  induction offs generalizing s with
  | nil => simp only [List.map_nil, List.nil_append] at h; simp [← h]
  | cons off offs ih =>
    obtain ⟨hoff, hal⟩ := hoffs off (by simp)
    have hstep := step_r32_exact s (offs.map (r32 s.cfg) ++ rest) off hoff hal h (.inl hb)
    have htail := ih { s with
        inbox := offs.map (r32 s.cfg) ++ rest,
        reads := ⟨off, slotWord s.cfg s.engine (slotAt s.cfg off)⟩ :: s.reads }
      hb (fun o ho => hoffs o (by simp [ho])) rfl
    rw [List.length_cons, run_succ _ _ _ hstep, htail]
    simp

/-- The reads of one window of a register that holds v: they record words whose READ value is v. -/
theorem run_read_window (offset : Nat → Nat) (v : Nat) (rest : List Arrival) (s : State) (hi : s.cfg.Valid)
    (hb : s.engine.BUSY = false) (hv : v < s.cfg.radix)
    (hoff : ∀ j, j < s.cfg.nl → offset j < 0x2000 ∧ offset j % 4 = 0 ∧ offset j % 0x100 / 4 = j ∧
      slotWord s.cfg s.engine (slotAt s.cfg (offset j)) = limb v j)
    (h : s.inbox = ((List.range s.cfg.nl).map fun j => r32 s.cfg (offset j)) ++ rest) :
    ∃ words, words.length = s.cfg.nl ∧ readValue words = v ∧
      run s.cfg.nl s = .next ({ s with inbox := rest, reads := words ++ s.reads } : State) := by
  have hrun := run_r32_list ((List.range s.cfg.nl).map offset) rest s hb
    (fun off ho => by
      obtain ⟨j, hj, rfl⟩ := List.mem_map.mp ho
      exact ⟨(hoff j (List.mem_range.mp hj)).1, (hoff j (List.mem_range.mp hj)).2.1⟩)
    (by rw [h, List.map_map]; rfl)
  rw [List.length_map, List.length_range] at hrun
  refine ⟨_, by simp, ?_, hrun⟩
  rw [readValue_reverse, readValue, List.map_map, List.map_map]
  rw [List.map_congr_left (g := fun j => (limb v j).toNat * 2 ^ (32 * j)), sum_limbs, ← opw_eq s.cfg hi]
  · exact Nat.mod_eq_of_lt hv
  · intro j hj
    obtain ⟨_, _, h3, h4⟩ := hoff j (List.mem_range.mp hj)
    simp [h3, h4]

/-- READ Ri of an idle engine gives the register's value and changes nothing but the words read (R93). -/
theorem run_readReg (i : RegIdx) (rest : List Arrival) (s : State) (hi : s.Inv) (hb : s.engine.BUSY = false)
    (h : s.inbox = readReg s.cfg i ++ rest) :
    ∃ words, words.length = s.cfg.nl ∧ readValue words = s.engine.reg i ∧
      run s.cfg.nl s = .next ({ s with inbox := rest, reads := words ++ s.reads } : State) := by
  refine run_read_window (operandOffset i) _ rest s hi.cfg_valid hb (hi.regs_lt i) (fun j hj => ?_) h
  have h64 := nl_le s.cfg hi.cfg_valid
  have := i.isLt
  refine ⟨by unfold operandOffset; omega, by unfold operandOffset; omega, by unfold operandOffset; omega, ?_⟩
  rw [operandOffset, slotAt_operand s.cfg i j hj (by omega)]
  rfl

/-- READ of a result register of an idle engine gives its value and changes nothing but the words read (R93). -/
theorem run_readResult (r : ResultReg) (rest : List Arrival) (s : State) (hi : s.Inv) (hb : s.engine.BUSY = false)
    (h : s.inbox = readResult s.cfg r ++ rest) :
    ∃ words, words.length = s.cfg.nl ∧ readValue words = s.engine.resultReg r ∧
      run s.cfg.nl s = .next ({ s with inbox := rest, reads := words ++ s.reads } : State) := by
  refine run_read_window (resultOffset r) _ rest s hi.cfg_valid hb (hi.results_lt r) (fun j hj => ?_) h
  have h64 := nl_le s.cfg hi.cfg_valid
  refine ⟨?_, ?_, ?_, ?_⟩
  iterate 3 (cases r <;> simp only [resultOffset] <;> omega)
  rw [slotAt_result s.cfg r j hj (by omega)]
  rfl

end Sys2Proof.Machine
end

