-- ==== Sys2Proof/Laws/PerInstr.lean ====
section
/-! SUPPORT. Facts about every command as syntax, one lemma per constructor.
Family FieldsLegal: the field record of a command passes every check that makes a word illegal (R83, R85, R86). -/

namespace Sys2Proof.Laws.FieldsLegal

/-- The command is well formed. -/
def Statement (i : Instr) : Prop := i.WellFormed

theorem modexp (rd rs1 rs2 rs3 : RegIdx) : Statement (.modexp rd rs1 rs2 rs3) := rfl
theorem montmul (rd rs1 rs2 rs3 : RegIdx) : Statement (.montmul rd rs1 rs2 rs3) := rfl
theorem barrett (rd rs1 rs2 rs3 : RegIdx) : Statement (.barrett rd rs1 rs2 rs3) := rfl
theorem fermat (rd rs1 : RegIdx) : Statement (.fermat rd rs1) := rfl
theorem egcd (rs1 rs2 : RegIdx) : Statement (.egcd rs1 rs2) := rfl
theorem modinv (rd rs1 rs2 : RegIdx) : Statement (.modinv rd rs1 rs2) := rfl

end Sys2Proof.Laws.FieldsLegal
end

