-- ==== Sys2Proof/Tests/Slice0.lean ====
section
/-! SUPPORT. The model's own tests. Expected values are those of the spec's vectors (95_test_vectors.md) or are worked out by hand from
a rule; each test says which. Then, for every statement with hypotheses, a witness: concrete states and operands that meet them. -/

namespace Sys2Proof.Tests

open Sys2Proof Sys2Proof.Machine

/-! ### Small states -/

/-- An idle engine at the given width, the window at 0x2000, with some operand registers loaded. -/
def idle (opw : Nat) (l : List (RegIdx × Nat)) : State :=
  { State.reset with
    cfg := ⟨opw, 0x2000⟩, engine := l.foldl (fun e p => e.setReg p.1 p.2) Engine.reset }

/-- The state with these arrivals. -/
def bus (s : State) (l : List Arrival) : State := { s with inbox := l }

/-- The state with this command word accepted. -/
def busy (s : State) (w : Word) : State := { s with engine := s.engine.accept w }

/-- What a result says about the engine. -/
def view {α : Type} (f : Engine → α) : Result → Option α
  | .next s => some (f s.engine)
  | .fault _ => none
  | .refused _ => none

/-- The words read, latest first. -/
def readsOf : Result → Option (List Word)
  | .next s => some (s.reads.map HostRead.data)
  | .fault _ => none
  | .refused _ => none

/-- A result is a next state whose engine has the property. -/
theorem next_of_view (p : Engine → Bool) (r : Result) (h : view p r = some true) : ∃ t, r = .next t ∧ p t.engine = true := by
  cases r with
  | next t => exact ⟨t, rfl, by simpa [view] using h⟩
  | fault _ => simp [view] at h
  | refused _ => simp [view] at h

/-! ### WellFormed: an ill-formed record for each check (R83, R85, R86) -/

theorem test_legal_accepts : (Instr.fields (.modexp 3 0 1 2)).legal = true := by decide
theorem test_legal_refuses_bits_7_6 : (CmdFields.mk 1 1 0 0 0 0 0 0 0 0).legal = false := by decide
theorem test_legal_refuses_bit_11 : (CmdFields.mk 1 0 0 1 0 0 0 0 0 0).legal = false := by decide
theorem test_legal_refuses_bit_15 : (CmdFields.mk 1 0 0 0 0 1 0 0 0 0).legal = false := by decide
theorem test_legal_refuses_bit_19 : (CmdFields.mk 1 0 0 0 0 0 0 1 0 0).legal = false := by decide
theorem test_legal_refuses_bits_31_23 : (CmdFields.mk 1 0 0 0 0 0 0 0 0 256).legal = false := by decide
theorem test_legal_refuses_opcode_0 : (CmdFields.mk 0 0 0 0 0 0 0 0 0 0).legal = false := by decide
theorem test_legal_refuses_opcode_7 : (CmdFields.mk 7 0 0 0 0 0 0 0 0 0).legal = false := by decide
theorem test_legal_refuses_opcode_63 : (CmdFields.mk 63 0 0 0 0 0 0 0 0 0).legal = false := by decide
theorem test_legal_refuses_fermat_rs2 : (CmdFields.mk 4 0 0 0 0 0 1 0 0 0).legal = false := by decide
theorem test_legal_refuses_fermat_rs3 : (CmdFields.mk 4 0 0 0 0 0 0 0 1 0).legal = false := by decide
theorem test_legal_refuses_egcd_rd : (CmdFields.mk 5 0 1 0 0 0 0 0 0 0).legal = false := by decide
theorem test_legal_refuses_egcd_rs3 : (CmdFields.mk 5 0 0 0 0 0 0 0 7 0).legal = false := by decide
theorem test_legal_refuses_modinv_rs3 : (CmdFields.mk 6 0 0 0 0 0 0 0 7 0).legal = false := by decide

/-! ### Decode and encode: words from section 2.5 and written out from R81 -/

/-- OP 01, RD 3, RS1 0, RS2 1, RS3 2. -/
theorem test_decode_modexp :
    decode 0b00000000001000010000001100000001 = .ok (.modexp 3 0 1 2) ∧ encode (.modexp 3 0 1 2) = 0x00210301 := by decide
/-- OP 02, RD 7, RS1 1, RS2 2, RS3 0. -/
theorem test_decode_montmul :
    decode 0b00000000000000100001011100000010 = .ok (.montmul 7 1 2 0) ∧ encode (.montmul 7 1 2 0) = 0x00021702 := by decide
/-- OP 03, RD 3, RS1 4, RS2 5, RS3 0. -/
theorem test_decode_barrett :
    decode 0b00000000000001010100001100000011 = .ok (.barrett 3 4 5 0) ∧ encode (.barrett 3 4 5 0) = 0x00054303 := by decide
/-- OP 04, RD 1, RS1 0. -/
theorem test_decode_fermat :
    decode 0b00000000000000000000000100000100 = .ok (.fermat 1 0) ∧ encode (.fermat 1 0) = 0x00000104 := by decide
/-- OP 05, RS1 2, RS2 3. -/
theorem test_decode_egcd :
    decode 0b00000000000000110010000000000101 = .ok (.egcd 2 3) ∧ encode (.egcd 2 3) = 0x00032005 := by decide
/-- OP 06, RD 4, RS1 2, RS2 3. -/
theorem test_decode_modinv :
    decode 0b00000000000000110010010000000110 = .ok (.modinv 4 2 3) ∧ encode (.modinv 4 2 3) = 0x00032406 := by decide
theorem test_decode_illegal :
    decode 0x00000007 = .error .undefinedOpcode ∧ decode 0x80000001 = .error .reservedBits ∧
    decode 0x00010104 = .error .unusedField ∧ decode 0x00700006 = .error .unusedField := by decide
theorem test_decodeTableWord :
    decodeTableWord 32 0x00777701 = some (.modexp 7 7 7 7) ∧ decodeTableWord 32 0 = none := by decide
/-- R92's spelling. -/
theorem test_spelling : (Instr.modinv 4 2 3).spelling = "modinv r4, r2, r3" := by decide
/-- Section 2.7: the bytes of 0x9ABCDEF0. -/
theorem test_byteLane :
    [0, 1, 2, 3].map (byteLane 0x9ABCDEF0) = [0xF0, 0xDE, 0xBC, 0x9A] := by decide

/-! ### Commands: the vectors of section 2, as (R3, STATUS) after the command -/

theorem test_modexp :
    view (fun e => (e.reg 3, statusWord e)) (exec (.modexp 3 0 1 2) (idle 32 [(0, 4), (1, 13), (2, 497)]))
      = some (445, 0x002) := by decide
/-- R45: `modexp r3, r3, r6, r0` computes from the old R3. -/
theorem test_modexp_alias :
    view (fun e => e.reg 3) (exec (.modexp 3 3 6 0) (idle 32 [(3, 3), (6, 2), (0, 97)])) = some 9 := by decide
theorem test_montmul_narrow :
    view (fun e => (e.reg 3, statusWord e)) (exec (.montmul 3 0 1 2) (idle 32 [(0, 5), (1, 7), (2, 97)]))
      = some (1, 0x002) := by decide
theorem test_montmul_wide :
    view (fun e => (e.reg 3, statusWord e)) (exec (.montmul 3 0 1 2) (idle 256 [(0, 5), (1, 7), (2, 97)]))
      = some (61, 0x002) := by decide
theorem test_barrett_narrow :
    view (fun e => (e.reg 3, statusWord e)) (exec (.barrett 3 0 1 2) (idle 32 [(0, 3), (1, 7), (2, 1000003)]))
      = some (863243, 0x002) := by decide
theorem test_barrett_wide :
    view (fun e => (e.reg 3, statusWord e)) (exec (.barrett 3 0 1 2) (idle 256 [(0, 3), (1, 7), (2, 1000003)]))
      = some (469954, 0x002) := by decide
theorem test_fermat_composite :
    view (fun e => (e.reg 3, statusWord e)) (exec (.fermat 3 0) (idle 32 [(0, 561)])) = some (375, 0x1002) := by decide
theorem test_fermat_prime :
    view (fun e => (e.reg 3, statusWord e)) (exec (.fermat 3 0) (idle 32 [(0, 691)])) = some (1, 0x9006) := by decide
theorem test_egcd :
    view (fun e => (e.G, e.CX, e.CY, statusWord e)) (exec (.egcd 0 1) (idle 32 [(0, 17), (1, 3120)]))
      = some (1, 367, 2, 0x012) := by decide
theorem test_egcd_equal :
    view (fun e => (e.G, e.coeffX, e.coeffY)) (exec (.egcd 0 0) (idle 32 [(0, 12)])) = some (12, 0, 1) := by decide
theorem test_modinv :
    view (fun e => (e.reg 3, e.CX, statusWord e)) (exec (.modinv 3 0 1) (idle 32 [(0, 17), (1, 3120)]))
      = some (2753, 367, 0x012) := by decide
theorem test_modinv_sentinel :
    view (fun e => (e.reg 3, e.G, statusWord e)) (exec (.modinv 3 0 1) (idle 32 [(0, 4), (1, 8), (3, 9)]))
      = some (0, 4, 0x00A) := by decide

/-! ### Errors, the window, resets: sections 2.6 to 2.8 -/

/-- An engine that an EGCD of 17 and 3120 left with XNEG = 1. -/
def afterEgcd : State :=
  { idle 32 [(0, 97), (1, 5), (2, 7), (3, 1234)] with
    engine := ((idle 32 [(0, 97), (1, 5), (2, 7), (3, 1234)]).engine.setTriple 1 (-367) 2) }

theorem test_error_is_precise :
    view (fun e => (e.reg 3, e.G, e.CX, statusWord e)) (exec (.montmul 3 1 2 2) afterEgcd)
      = some (1234, 1, 367, 0x412) := by decide
theorem test_div0_before_even :
    view statusWord (exec (.montmul 3 1 2 4) afterEgcd) = some 0x212 := by decide
theorem test_illegal_word :
    view (fun e => (statusWord e, e.CMDL)) (step (State.reset.withFetchWord 32 0x41)) = some (0x102, 0x41) := by decide
theorem test_fetch_word_runs :
    view (fun e => (e.CX, statusWord e)) (step (State.reset.withFetchWord 32 0x00010005)) = some (1, 0x002) := by decide
theorem test_id_at_256 : readsOf (step (bus (idle 256 []) [r32 ⟨256, 0x2000⟩ 0])) = some [0x4D450801] := by decide
theorem test_id_at_2048 : readsOf (step (bus (idle 2048 []) [r32 ⟨2048, 0x2000⟩ 0])) = some [0x4D454001] := by decide
theorem test_limb_write :
    view (fun e => e.reg 0) (step (bus (idle 256 [(0, 0x12345678)]) [w32 ⟨256, 0x2000⟩ 0x1004 0x9ABCDEF0]))
      = some 0x9ABCDEF012345678 := by decide
theorem test_limb_above_width_ignored :
    view (fun e => (e.reg 0, e.WERR)) (step (bus (idle 256 [(0, 7)]) [w32 ⟨256, 0x2000⟩ 0x1020 5]))
      = some (7, false) := by decide
theorem test_write_while_busy_dropped :
    view (fun e => (e.reg 1, statusWord e)) (step (bus (busy (idle 32 [(1, 5)]) 1) [w32 ⟨32, 0x2000⟩ 0x1100 6]))
      = some (5, 0x041) := by decide
theorem test_soft_reset :
    view (fun e => e) (step (bus (busy afterEgcd 1) [w32 ⟨32, 0x2000⟩ 0x004 3])) = some Engine.reset := by decide
theorem test_ctrl_write_sets_ie :
    view (fun e => (e.IE, ctrlWord e)) (step (bus (idle 32 []) [w32 ⟨32, 0x2000⟩ 0x004 0xFFFFFFFD]))
      = some (true, 1) := by decide
theorem test_misaligned_read_faults :
    readsOf (step (bus (idle 32 []) [.access ⟨0x3002, .word, .read⟩])) = none := by decide

/-- R93: READ R0 at OPW = 64 gives 1·2^32 + 2, in either order of the words. -/
theorem test_read_value :
    (match run 2 (bus (idle 64 [(0, 0x100000002)]) (readReg ⟨64, 0x2000⟩ 0)) with
      | .next t => some (t.reads, readValue t.reads, readValue t.reads.reverse)
      | .fault _ => none
      | .refused _ => none) = some ([⟨0x1004, 1⟩, ⟨0x1000, 2⟩], 0x100000002, 0x100000002) := by decide
/-- R223: from reset no command was issued, so WAIT reads STATUS, sees DONE = 0, and still waits. -/
theorem test_wait_hangs :
    step (bus State.reset [.waitDone 5, .engineTurn]) =
      .next { bus State.reset [.waitDone 5, .engineTurn] with reads := [⟨0x008, 0⟩] } := by rfl
/-- R93: `fermat r1, r0` with R0 = 691, waited for: STATUS reads 0x1 while busy and 0x9006 at the end. -/
theorem test_wait_ends :
    (match run 4 (bus (busy (idle 32 [(0, 691)]) 0x104) [.waitDone 1]) with
      | .next t => some (t.reads.map HostRead.data, t.inbox)
      | .fault _ => none
      | .refused _ => none) = some ([0x9006, 0x1, 0x1], []) := by decide

/-! ### Witnesses: the hypotheses of the statements can be met -/

def c32 : Config := ⟨32, 0x2000⟩

theorem witness_DecodeOfEncode : (Instr.modexp 7 7 7 7).WellFormed := by unfold Instr.WellFormed; decide
theorem witness_LegalWordHasOneSpelling : decode 0x00777701 = .ok (.modexp 7 7 7 7) := by decide
theorem witness_DecodeIsMaskAndMatch :
    ((0xFFFF88FF : Word), (4 : Word)) ∈ [((0xFF8888FF : Word), (1 : Word)), (0xFF8888FF, 2), (0xFF8888FF, 3), (0xFFFF88FF, 4),
      (0xFFF88FFF, 5), (0xFFF888FF, 6)] ∧ (0x00007704 : Word) &&& 0xFFFF88FF = 4 := by decide
theorem witness_StepRunsDecodedCommand :
    (bus (busy (idle 32 []) 0x104) []).EngineNext [] ∧
    (bus (busy (idle 32 []) 0x104) [.engineTurn, .hardwareReset]).EngineNext [.hardwareReset] ∧
    (busy (idle 32 []) 0x104).engine.BUSY = true ∧ decode (busy (idle 32 []) 0x104).engine.CMDL = .ok (.fermat 1 0) ∧
    decode (BitVec.ofNat 32 (0x104 % 2 ^ 32)) = .ok (.fermat 1 0) ∧ (idle 32 []).engine.BUSY = false :=
  ⟨.inr ⟨rfl, rfl⟩, .inl rfl, rfl, by decide, by decide, rfl⟩
theorem witness_IllegalWordCompletesWithIllegal :
    (bus (busy (idle 32 []) 0) [.engineTurn]).EngineNext [] ∧
    (bus (busy (idle 32 []) 0) [.engineTurn]).engine.BUSY = true ∧
    decode (bus (busy (idle 32 []) 0) [.engineTurn]).engine.CMDL = .error .undefinedOpcode :=
  ⟨.inl rfl, rfl, by decide⟩
theorem witness_CmdWriteAcceptsOrDrops :
    (bus (idle 32 []) [w32 c32 0x00C 0]).inbox = w32 (idle 32 []).cfg 0x00C 0 :: [] ∧ (idle 32 []).engine.BUSY = false ∧
    (busy (idle 32 []) 1).engine.BUSY = true ∧
    (bus (idle 32 []) [r32 c32 0x00C]).inbox = r32 (idle 32 []).cfg 0x00C :: [] := by decide
theorem witness_EveryRunEndsIdle :
    (∀ a ∈ (bus (idle 32 []) [r32 c32 0x1FFC, .engineTurn, .access ⟨0x4000, .byte, .read⟩]).inbox,
      a.Accepted (idle 32 []).cfg ∧ ¬a.IsWait) ∧
    ∀ a ∈ (bus (idle 32 []) [.waitDone 2, r32 c32 0x1FFC]).inbox, a.Accepted (idle 32 []).cfg := by
  refine ⟨fun a ha => ?_, fun a ha => ?_⟩
  · have : a = r32 c32 0x1FFC ∨ a = .engineTurn ∨ a = .access ⟨0x4000, .byte, .read⟩ := by simpa [bus] using ha
    rcases this with rfl | rfl | rfl
    · exact ⟨fun _ => by decide, id⟩
    · exact ⟨trivial, id⟩
    · exact ⟨fun h => absurd h (by decide), id⟩
  · have : a = .waitDone 2 ∨ a = r32 c32 0x1FFC := by simpa [bus] using ha
    rcases this with rfl | rfl
    · trivial
    · exact fun _ => by decide
/-- A WAIT in an idle state that hangs, at a completed command, and while a command runs. -/
theorem witness_WaitEndsOrHangs :
    (bus (idle 32 []) [.waitDone 0]).inbox = .waitDone 0 :: [] ∧ (bus (idle 32 []) [.waitDone 0]).Hangs ∧
    ({ Engine.reset with DONE := true } : Engine).DONE = true ∧
    (bus (busy (idle 32 []) 0x104) [.waitDone 0]).inbox = .waitDone 0 :: [] ∧
    (busy (idle 32 []) 0x104).engine.DONE = false ∧ (busy (idle 32 []) 0x104).engine.BUSY = true :=
  ⟨rfl, ⟨rfl, rfl, 0, [], rfl⟩, rfl, rfl, rfl, rfl⟩
theorem witness_ResultIsFixedAtAccept :
    let s := bus (busy (idle 32 [(0, 97)]) 0x104) ([w32 c32 0x1000 6, w32 c32 0x004 1] ++ .engineTurn :: [])
    s.engine.BUSY = true ∧ s.inbox = [w32 c32 0x1000 6, w32 c32 0x004 1] ++ .engineTurn :: [] ∧
    ∀ a ∈ [w32 c32 0x1000 6, w32 c32 0x004 1], a.FromHost ∧ a.Accepted s.cfg ∧ ¬ a.Resets s.cfg := by
  refine ⟨rfl, rfl, fun a ha => ?_⟩
  have : a = w32 c32 0x1000 6 ∨ a = w32 c32 0x004 1 := by simpa using ha
  rcases this with rfl | rfl
  · exact ⟨trivial, fun _ => by decide, fun h => absurd h.1 (by decide)⟩
  · refine ⟨trivial, fun _ => by decide, fun h => ?_⟩
    obtain ⟨_, _, w, hw, hb⟩ := h
    cases hw
    exact absurd hb (by decide)

/-- Odd modulus 2^32 - 1, the largest at this width, with operands below it: the arithmetic statements. -/
def sOdd : State := idle 32 [(0, 4294967294), (1, 4294967293), (2, 4294967295), (3, 1), (5, 2)]

theorem witness_modular_results :
    sOdd.cfg.Valid ∧ sOdd.engine.reg 2 ≠ 0 ∧ sOdd.engine.reg 2 % 2 = 1 ∧ sOdd.engine.reg 2 ≠ 1 ∧
    sOdd.engine.reg 2 < 2 ^ sOdd.cfg.opw ∧ sOdd.engine.reg 0 < sOdd.engine.reg 2 ∧ sOdd.engine.reg 1 < sOdd.engine.reg 2 ∧
    sOdd.engine.reg 0 < 2 ^ sOdd.cfg.opw ∧ sOdd.engine.reg 1 < 2 ^ sOdd.cfg.opw := by decide
/-- The clause m = 1 of MontmulResult. -/
theorem witness_MontmulResult_one :
    sOdd.engine.reg 3 % 2 = 1 ∧ sOdd.engine.reg 4 < sOdd.engine.reg 3 ∧ sOdd.engine.reg 3 = 1 := by decide
theorem witness_TwoMontmulsMultiply :
    let s := idle 32 [(0, 97), (1, 5), (2, 7), (3, 61), (4, 1), (6, 2)]
    (7 : RegIdx) ≠ 3 ∧ (7 : RegIdx) ≠ 0 ∧ s.engine.reg 0 % 2 = 1 ∧ s.engine.reg 1 < s.engine.reg 0 ∧
    s.engine.reg 2 < s.engine.reg 0 ∧ s.engine.reg 3 = 2 ^ (2 * s.cfg.opw) % s.engine.reg 0 ∧
    (7 : RegIdx) ≠ 6 ∧ s.engine.reg 4 = 1 ∧ s.engine.reg 5 = 0 ∧ s.engine.reg 6 = 2 ∧ s.engine.reg 0 ≠ 0 := by decide
/-- n = 15: 2^14 mod 15 = 4, n = 3 passes probe 2 and fails probe 3, n = 19 passes all. -/
theorem witness_FermatResult :
    (idle 32 [(0, 15)]).engine.reg 0 ≠ 0 ∧
    [2, 3, 5, 7, 11, 13, 17, 43, 683] = [] ++ 2 :: [3, 5, 7, 11, 13, 17, 43, 683] ∧
    2 ^ ((idle 32 [(0, 15)]).engine.reg 0 - 1) % (idle 32 [(0, 15)]).engine.reg 0 ≠ 1 ∧
    [2, 3, 5, 7, 11, 13, 17, 43, 683] = [2] ++ 3 :: [5, 7, 11, 13, 17, 43, 683] ∧
    (∀ q ∈ [2], q ^ ((idle 32 [(0, 3)]).engine.reg 0 - 1) % (idle 32 [(0, 3)]).engine.reg 0 = 1) ∧
    3 ^ ((idle 32 [(0, 3)]).engine.reg 0 - 1) % (idle 32 [(0, 3)]).engine.reg 0 ≠ 1 ∧
    (∀ q ∈ [2, 3, 5, 7, 11, 13, 17, 43, 683], q ^ ((idle 32 [(0, 19)]).engine.reg 0 - 1) % (idle 32 [(0, 19)]).engine.reg 0 = 1) := by
  decide
theorem witness_fermat_special_values :
    (idle 32 [(0, 1)]).engine.reg 0 = 1 ∧
    (idle 32 [(0, 683)]).engine.reg 0 = [2, 3, 5, 7, 11, 13, 17, 43, 683][(8 : Fin 9)] ∧
    2 ≤ (idle 32 [(0, 2)]).engine.reg 0 ∧ (idle 32 [(0, 2)]).engine.reg 0 % 2 = 0 ∧
    (idle 32 [(0, 19)]).engine.reg 0 ∉ [2, 3, 5, 7, 11, 13, 17, 43, 683] := by decide
theorem witness_FermatOnEvensAndPrimes : Nat.Prime ((idle 32 [(0, 19)]).engine.reg 0) := by
  have : (idle 32 [(0, 19)]).engine.reg 0 = 19 := by decide
  rw [this]
  norm_num
theorem witness_euclid_recursion : SolvesR151 EG := solvesR151_EG
theorem witness_ModinvResult :
    (EG ((idle 32 [(0, 3), (1, 7)]).engine.reg 0) ((idle 32 [(0, 3), (1, 7)]).engine.reg 1)).1 = 1 ∧
    (idle 32 [(0, 3), (1, 7)]).engine.reg 1 ≠ 0 ∧
    (EG ((idle 32 []).engine.reg 0) ((idle 32 []).engine.reg 1)).1 ≠ 1 := by decide
theorem witness_BezoutIdentityAndBounds :
    ¬(sOdd.engine.reg 0 = 1 ∧ sOdd.engine.reg 2 = 0) ∧ 32 ≤ sOdd.cfg.opw ∧ sOdd.engine.reg 0 < 2 ^ sOdd.cfg.opw ∧
    sOdd.engine.reg 2 < 2 ^ sOdd.cfg.opw := by decide
/-- The least b, 2, with a = 1 and with a = 3 = b + 1. -/
theorem witness_ModinvWritesTheInverse :
    let s := idle 32 [(0, 3), (1, 2)]
    let s' := idle 32 [(0, 1), (1, 2)]
    Nat.gcd (s.engine.reg 0) (s.engine.reg 1) = 1 ∧ 1 < s.engine.reg 1 ∧ s'.engine.reg 1 = s.engine.reg 1 ∧
    s'.engine.reg 0 = s.engine.reg 0 % s.engine.reg 1 := by decide
theorem witness_error_cases :
    (idle 32 [(0, 1)]).engine.reg 0 = 1 ∧ (idle 32 [(0, 1)]).engine.reg 1 = 0 ∧
    (idle 32 [(0, 4)]).engine.reg 0 ≠ 0 ∧ (idle 32 [(0, 4)]).engine.reg 0 % 2 = 0 ∧
    (idle 32 [(0, 7)]).engine.reg 0 % 2 = 1 ∧
    ((idle 32 [(0, 7)]).engine.reg 0 ≤ (idle 32 [(0, 7)]).engine.reg 0 ∨
      (idle 32 [(0, 7)]).engine.reg 0 ≤ (idle 32 [(0, 7)]).engine.reg 1) := by decide
theorem witness_modinv_next : ∃ t, exec (.modinv 3 0 1) (idle 32 [(0, 1)]) = .next t ∧ t.engine.ERR = 2 := ⟨_, rfl, by decide⟩
/-- MONTMUL with m = 4 and a = 9 reports EVEN, not RANGE (R175's example). -/
theorem witness_ErrorCodes :
    ∃ t, completeCommand (busy (idle 32 [(0, 9), (1, 9), (2, 4)]) 0x00210302) = .next t ∧ t.engine.ERR = 3 := ⟨_, rfl, by decide⟩
theorem witness_ErrorsArePrecise : ∃ t, completeCommand (busy afterEgcd 0x00221302) = .next t ∧ t.engine.ERR ≠ 0 :=
  ⟨_, rfl, by decide⟩
theorem witness_PrimeFlagRule :
    ∃ t, completeCommand (busy (idle 32 [(0, 19)]) 0x104) = .next t ∧ t.engine.PRIME = true := ⟨_, rfl, by decide⟩
theorem witness_NoInverseFlagRule :
    ∃ t, completeCommand (busy (idle 32 [(0, 4), (1, 8)]) 0x00010306) = .next t ∧ t.engine.NOINV = true := ⟨_, rfl, by decide⟩
theorem witness_SignFlagsRule :
    (∃ t, completeCommand (busy (idle 32 [(0, 17), (1, 3120)]) 0x00010005) = .next t ∧
      (∃ i, decode (busy (idle 32 []) 0x00010005).engine.CMDL = .ok i ∧ isEuclid i = true ∧ t.engine.ERR = 0)) ∧
    decode (busy (idle 32 []) 0x00010005).engine.CMDL = .ok (.egcd 0 1) ∧
    (∃ t, completeCommand (busy afterEgcd 0x104) = .next t ∧
      ¬∃ i, decode (busy afterEgcd 0x104).engine.CMDL = .ok i ∧ isEuclid i = true ∧ t.engine.ERR = 0) := by
  refine ⟨⟨_, rfl, .egcd 0 1, by decide, rfl, by decide⟩, by decide, _, rfl, ?_⟩
  rintro ⟨i, hi, he, _⟩
  have hd : decode (busy afterEgcd 0x104).engine.CMDL = .ok (.fermat 1 0) := by decide
  rw [hd] at hi
  cases hi
  cases he
theorem witness_FailIndexRule :
    (∃ t, completeCommand (busy (idle 32 [(0, 561)]) 0x104) = .next t ∧ t.engine.ERR = 0 ∧ t.engine.FAILIDX.val = 1) ∧
    (∃ t, completeCommand (busy (idle 32 [(0, 19)]) 0x104) = .next t ∧ t.engine.ERR = 0 ∧ t.engine.FAILIDX.val = 9) ∧
    (∃ t, completeCommand (busy (idle 32 [(0, 4)]) 0x104) = .next t ∧ t.engine.ERR = 0 ∧ t.engine.FAILIDX = 0 ∧
      t.engine.PRIME = false) ∧
    decode 0x104 = .ok (.fermat 1 0) := by
  exact ⟨⟨_, rfl, by decide, by decide⟩, ⟨_, rfl, by decide, by decide⟩, ⟨_, rfl, by decide, by decide, by decide⟩, by decide⟩
/-- The last byte of R3's window at this width is outside `modinv r2`'s destination, and so is CMD's first byte. -/
theorem witness_CommandFrame :
    (∃ t, exec (.modinv 2 0 1) (idle 32 [(0, 3), (1, 7), (3, 9)]) = .next t) ∧ destOf (.modinv 2 0 1) ≠ some 3 ∧
    isEuclid (.fermat 2 0) = false ∧
    ¬(0x008 ≤ 0x00C ∧ 0x00C < 0x00C) ∧ ¬(operandOffset 2 0 ≤ 0x1303 ∧ 0x1303 < operandOffset 2 c32.nl) ∧
    ¬(0x1800 ≤ 0x1303 ∧ 0x1303 < 0x1B00) := ⟨⟨_, rfl⟩, by decide, rfl, by decide, by decide, by decide⟩
theorem witness_ModexpAndFermatSeeOnlyTheirOperands :
    (idle 32 [(0, 4), (1, 13), (2, 497)]).engine.reg 0 = (idle 256 [(5, 4), (6, 13), (7, 497)]).engine.reg 5 ∧
    (idle 32 [(0, 4), (1, 13), (2, 497)]).engine.reg 1 = (idle 256 [(5, 4), (6, 13), (7, 497)]).engine.reg 6 ∧
    (idle 32 [(0, 4), (1, 13), (2, 497)]).engine.reg 2 = (idle 256 [(5, 4), (6, 13), (7, 497)]).engine.reg 7 ∧
    (idle 32 [(0, 4), (1, 13), (2, 497)]).engine.reg 2 ≠ 0 ∧ (idle 32 [(0, 4), (1, 13), (2, 497)]).engine.reg 0 ≠ 0 := by decide
theorem witness_control_registers :
    c32.Valid ∧ Config.Valid ⟨2048, 0⟩ ∧ (⟨256, 0⟩ : Config).opw = 256 ∧
    (bus (idle 32 []) [r32 c32 0x000]).inbox = r32 (idle 32 []).cfg 0x000 :: [] ∧
    (bus (idle 32 []) [w32 c32 0x000 1]).inbox = w32 (idle 32 []).cfg 0x000 1 :: [] ∧
    (bus (idle 32 []) [r32 c32 0x008]).inbox = r32 (idle 32 []).cfg 0x008 :: [] ∧
    (bus (idle 32 []) [w32 c32 0x008 0x42]).inbox = w32 (idle 32 []).cfg 0x008 0x42 :: [] ∧
    (bus (idle 32 []) [w32 c32 0x004 3]).inbox = w32 (idle 32 []).cfg 0x004 3 :: [] ∧ (3 : Word).getLsbD 1 = true ∧
    (1 : Word).getLsbD 1 = false ∧ (bus (idle 32 []) [r32 c32 0x004]).inbox = r32 (idle 32 []).cfg 0x004 :: [] := by decide
/-- The last limb of R7 and of CY at the widest OPW. -/
theorem witness_windows :
    let s := bus (idle 2048 []) [r32 ⟨2048, 0x2000⟩ (0x1000 + 0x100 * 7 + 4 * 63)]
    let s' := bus (idle 2048 []) [w32 ⟨2048, 0x2000⟩ (0x1000 + 0x100 * 7 + 4 * 63) 5]
    let u := bus (idle 2048 []) [r32 ⟨2048, 0x2000⟩ (resultOffset .CY 63)]
    let u' := bus (idle 2048 []) [w32 ⟨2048, 0x2000⟩ (resultOffset .CY 63) 5]
    s.cfg.Valid ∧ 63 < s.cfg.nl ∧ s.inbox = r32 s.cfg (0x1000 + 0x100 * (7 : RegIdx).val + 4 * 63) :: [] ∧
    s'.inbox = w32 s'.cfg (0x1000 + 0x100 * (7 : RegIdx).val + 4 * 63) 5 :: [] ∧ s.engine.BUSY = false ∧
    (busy s 1).engine.BUSY = true ∧ (busy s 1).cfg = s.cfg ∧ (busy s 1).inbox = s.inbox ∧
    u.inbox = r32 u.cfg (resultOffset .CY 63) :: [] ∧ u'.inbox = w32 u'.cfg (resultOffset .CY 63) 5 :: [] := by decide
/-- Both ends of both reserved ranges, and the first slot at NL. -/
theorem witness_ReservedOffsetsReadZero :
    ∀ off ∈ [0x0010, 0x0FFC, 0x1B00, 0x1FFC, 0x1004, 0x1A04], off < 0x2000 ∧ off % 4 = 0 ∧
      (0x0010 ≤ off ∧ off < 0x1000 ∨ 0x1B00 ≤ off ∨ (0x1000 ≤ off ∧ (idle 32 []).cfg.nl ≤ off % 0x100 / 4)) ∧
      (bus (idle 32 []) [r32 c32 off]).inbox = r32 (idle 32 []).cfg off :: [] ∧
      (bus (idle 32 []) [w32 c32 off 1]).inbox = w32 (idle 32 []).cfg off 1 :: [] := by decide
/-- Limb offsets at both ends of the register windows, and others that are none. -/
theorem witness_limb_offsets :
    (∀ off ∈ [0x1000, 0x1700, 0x1800, 0x1A00], LimbOffset c32 off ∧ off < 0x2000 ∧ off % 4 = 0) ∧
    (∀ off ∈ [0x000, 0x004, 0x008, 0x00C, 0x0FFC, 0x1004, 0x1B00], ¬LimbOffset c32 off ∧ off < 0x2000 ∧ off % 4 = 0) := by decide
/-- A read and a write at any of them, while busy. -/
theorem witness_busy_accesses (off : Nat) :
    (bus (busy (idle 32 []) 1) [r32 c32 off]).engine.BUSY = true ∧
    (bus (busy (idle 32 []) 1) [r32 c32 off]).inbox = r32 (idle 32 []).cfg off :: [] ∧
    (bus (busy (idle 32 []) 1) [w32 c32 off 3]).inbox = w32 (idle 32 []).cfg off 3 :: [] := ⟨rfl, rfl, rfl⟩
/-- The first and the last address of the window, and its neighbours. -/
theorem witness_bus_errors :
    (bus (idle 32 []) [.access ⟨0x2000, .byte, .read⟩]).inbox = .access ⟨0x2000, .byte, .read⟩ :: [] ∧
    (idle 32 []).cfg.base ≤ 0x2000 ∧ 0x3FFF < (idle 32 []).cfg.base + 0x2000 ∧ AccessSize.byte ≠ .word ∧
    (0x3FFF - (idle 32 []).cfg.base) % 4 ≠ 0 ∧ (0x3FFC - (idle 32 []).cfg.base) % 4 = 0 ∧
    (bus (idle 32 []) [.access ⟨0x1FFF, .word, .read⟩]).inbox = .access ⟨0x1FFF, .word, .read⟩ :: [] ∧
    0x1FFF < (idle 32 []).cfg.base ∧ (idle 32 []).cfg.base + 0x2000 ≤ 0x4000 := by decide
theorem witness_ReadsChangeNothing :
    (∃ t, step (bus (idle 32 []) [r32 c32 0x1000]) = .next t) ∧
    (bus (idle 32 []) [r32 c32 0x1000]).inbox = .access ⟨0x3000, .word, .read⟩ :: [] ∧
    (idle 32 []).engine.BUSY = false ∧ ¬LimbOffset (busy (idle 32 []) 1).cfg 0x008 ∧
    (bus (idle 32 []) [r32 c32 0x1000, r32 c32 0x1000]).inbox = r32 (idle 32 []).cfg 0x1000 :: r32 (idle 32 []).cfg 0x1000 :: [] :=
  ⟨(next_of_view (fun _ => true) _ (by decide)).imp fun _ h => h.1, by decide, rfl, by decide, rfl⟩

/-- An idle state with the largest operands meets the invariant. -/
theorem idle_inv : (idle 256 [(0, 2 ^ 256 - 1)]).Inv where
  cfg_valid := by decide
  regs_lt := by decide
  results_lt := fun r => by cases r <;> decide
  busy_not_done := by decide
  err_le := by decide
  failidx_le := by decide
  prime_iff := by decide
  err_flags := by decide
  noinv_flags := by decide
  no_negative_zero := by decide

/-- The invariant does not mention what arrives. -/
theorem bus_inv (s : State) (l : List Arrival) (h : s.Inv) : (bus s l).Inv :=
  ⟨h.1, h.2, h.3, h.4, h.5, h.6, h.7, h.8, h.9, h.10⟩

/-- The idle state with the writes of `LOAD R0, 2^256 - 2` in its inbox. -/
def loading : State := bus (idle 256 [(0, 2 ^ 256 - 1)]) (loadReg ⟨256, 0x2000⟩ 0 (2 ^ 256 - 2))

theorem witness_LoadWritesTheWholeOperand :
    loading.Inv ∧ loading.engine.BUSY = false ∧ 2 ^ 256 - 2 < 2 ^ loading.cfg.opw ∧
    loading.inbox = loadReg loading.cfg 0 (2 ^ 256 - 2) ++ [] :=
  ⟨bus_inv _ _ idle_inv, rfl, by decide, by rw [List.append_nil]; rfl⟩
theorem witness_StepKeepsInvariant :
    ∃ t, (bus (idle 256 [(0, 2 ^ 256 - 1)]) [.hardwareReset]).Inv ∧
      step (bus (idle 256 [(0, 2 ^ 256 - 1)]) [.hardwareReset]) = .next t :=
  ⟨_, bus_inv _ _ idle_inv, rfl⟩
theorem witness_resets :
    (bus (busy afterEgcd 1) [.hardwareReset]).inbox = .hardwareReset :: [] ∧
    (bus (busy afterEgcd 1) [w32 c32 0x004 3]).inbox = w32 (busy afterEgcd 1).cfg 0x004 3 :: [] ∧
    ∀ k, (idle 32 []).engine.reg k = 0 := ⟨rfl, by simp [bus, busy, afterEgcd, idle, c32], by decide⟩
/-- An operand register changes by each of the three ways. -/
theorem witness_OperandRegistersChangeOnlyBy :
    (∃ t, step (bus (idle 32 []) [w32 c32 0x1000 5]) = .next t ∧ t.engine.reg 0 ≠ (idle 32 []).engine.reg 0) ∧
    (∃ t, step (bus (busy (idle 32 [(0, 19)]) 0x104) []) = .next t ∧ t.engine.reg 1 ≠ (idle 32 []).engine.reg 1) ∧
    (∃ t, step (bus (idle 32 [(0, 19)]) [.hardwareReset]) = .next t ∧ t.engine.reg 0 ≠ (idle 32 [(0, 19)]).engine.reg 0) := by
  refine ⟨(next_of_view (fun e => decide (e.reg 0 ≠ 0)) _ (by decide)).imp fun _ h => ⟨h.1, ?_⟩,
    (next_of_view (fun e => decide (e.reg 1 ≠ 0)) _ (by decide)).imp fun _ h => ⟨h.1, ?_⟩,
    (next_of_view (fun e => decide (e.reg 0 ≠ 19)) _ (by decide)).imp fun _ h => ⟨h.1, ?_⟩⟩
  all_goals exact of_decide_eq_true h.2
theorem witness_ResultRegistersChangeOnlyBy :
    ∃ t, step (bus (busy (idle 32 [(0, 17)]) 0x00010005) []) = .next t ∧
      t.engine.resultReg .G ≠ (busy (idle 32 [(0, 17)]) 0x00010005).engine.resultReg .G := ⟨_, rfl, by decide⟩

/-- An idle engine whose STATUS has DONE and WERR set and whose interrupt is enabled. -/
def signalling : State := { idle 32 [] with engine := { Engine.reset with DONE := true, WERR := true, IE := true } }

theorem witness_WerrIsSticky :
    (∃ t, step (bus (busy (idle 32 []) 1) [w32 c32 0x00C 1]) = .next t ∧ t.engine.WERR = true) ∧
    (busy (idle 32 []) 1).engine.WERR = false ∧
    (∃ t, step (bus signalling [w32 c32 0x008 0x40]) = .next t ∧ t.engine.WERR = false) ∧ signalling.engine.WERR = true ∧
    (bus (busy (idle 32 []) 1) [w32 c32 0x00C 1]).inbox = w32 c32 0x00C 1 :: [] ∧
    (w32 c32 0x00C 1).Writes c32 1 .cmd ∧ (w32 c32 0x1700 1).Writes c32 1 (.operand 7 0) :=
  ⟨⟨_, rfl, by decide⟩, rfl, ⟨_, rfl, by decide⟩, rfl, rfl, ⟨0x00C, by decide, by decide, rfl, rfl⟩,
    0x1700, by decide, by decide, by decide, rfl⟩
theorem witness_DoneRule :
    (∃ t, step (bus (busy (idle 32 []) 1) [.engineTurn]) = .next t ∧ t.engine.DONE = true) ∧
    (busy (idle 32 []) 1).engine.DONE = false ∧ (bus (busy (idle 32 []) 1) [.engineTurn]).EngineNext [] ∧
    (∃ t, step (bus signalling [w32 c32 0x00C 1]) = .next t ∧ t.engine.DONE = false) ∧
    (∃ t, step (bus signalling [w32 c32 0x008 2]) = .next t ∧ t.engine.DONE = false) ∧ signalling.engine.DONE = true :=
  ⟨⟨_, rfl, by decide⟩, rfl, .inl rfl, ⟨_, rfl, by decide⟩, ⟨_, rfl, by decide⟩, rfl⟩
theorem witness_InterruptOutput :
    (∃ t, step (bus signalling [w32 c32 0x004 0]) = .next t ∧ t.engine.irq = false) ∧ signalling.engine.irq = true ∧
    (∃ t, step (bus (busy signalling 1) []) = .next t ∧ t.engine.irq = true) ∧ (busy signalling 1).engine.irq = false :=
  ⟨⟨_, rfl, by decide⟩, by decide, ⟨_, rfl, by decide⟩, by decide⟩
theorem witness_ParametersNeverChange : ∃ t, step (bus (idle 32 []) [.engineTurn]) = .next t := ⟨_, rfl⟩

end Sys2Proof.Tests
end

section
/-! PROOFS, family state: the flags after a completion (R35 to R41), the control and status words (R27 to R32), WERR and the interrupt
output over every step (R39, R47), reset (R48). -/

namespace Sys2Proof.Machine

/-! ### What a completion can have done -/

/-- The commands that end by writing one operand register and nothing else of their own (R100). -/
def isModArith : Instr → Bool
  | .modexp _ _ _ _ | .montmul _ _ _ _ | .barrett _ _ _ _ => true
  | .fermat _ _ | .egcd _ _ | .modinv _ _ _ => false

/-- The two families have no command in common. -/
theorem isEuclid_of_isModArith {i : Instr} (h : isModArith i = true) : isEuclid i = false := by
  cases i with
  | modexp | montmul | barrett | fermat => rfl
  | egcd | modinv => cases h

/-- The ways a command can have ended, by what it wrote: an error (R176), or the results and flags of its family (R43). -/
inductive Completed (s : State) : State → Prop
  | error (c : ErrCode) : Completed s (s.afterError c.code)
  | modArith {i : Instr} {rd : RegIdx} {v : Nat} (hd : decode s.engine.CMDL = .ok i) (hi : isModArith i = true) :
      Completed s (s.afterOk (s.engine.setReg rd v) false false 0)
  | fermat {rd rs1 : RegIdx} (hd : decode s.engine.CMDL = .ok (.fermat rd rs1)) :
      Completed s (s.afterOk (s.engine.setReg rd (fermatScan (s.engine.reg rs1) probes 0).2)
        ((fermatScan (s.engine.reg rs1) probes 0).1 == probes.length) false
        (Fin.ofNat 16 (fermatScan (s.engine.reg rs1) probes 0).1))
  | egcd {rs1 rs2 : RegIdx} (hd : decode s.engine.CMDL = .ok (.egcd rs1 rs2)) :
      Completed s (s.afterOk
        (s.engine.setTriple (EG (s.engine.reg rs1) (s.engine.reg rs2)).1 (EG (s.engine.reg rs1) (s.engine.reg rs2)).2.1
          (EG (s.engine.reg rs1) (s.engine.reg rs2)).2.2) false false 0)
  | modinv {rd rs1 rs2 : RegIdx} {v : Nat} {noinv : Bool} (hd : decode s.engine.CMDL = .ok (.modinv rd rs1 rs2))
      (hn : noinv = true ↔ Nat.gcd (s.engine.reg rs1) (s.engine.reg rs2) ≠ 1) :
      Completed s (s.afterOk
        ((s.engine.setTriple (EG (s.engine.reg rs1) (s.engine.reg rs2)).1 (EG (s.engine.reg rs1) (s.engine.reg rs2)).2.1
          (EG (s.engine.reg rs1) (s.engine.reg rs2)).2.2).setReg rd v) false noinv 0)

/-- Code 0 means no error (R40). -/
theorem ErrCode.code_ne_zero (c : ErrCode) : c.code ≠ 0 := by cases c <;> decide

/-- Every completion is one of these. -/
theorem completed_of_completeCommand {s t : State} (h : completeCommand s = .next t) : Completed s t := by
  unfold completeCommand at h
  split at h
  case h_2 => cases h; exact .error .illegal
  case h_1 i hd =>
    cases i with
    | modexp rd a e m =>
      simp only [exec, execModexp] at h
      split at h
      · cases h; exact .error .div0
      · cases h; exact .modArith hd rfl
    | montmul rd a b m =>
      simp only [exec, execMontmul] at h
      split at h
      · cases h; exact .error .div0
      split at h
      · cases h; exact .error .even
      split at h
      · cases h; exact .error .range
      · cases h; exact .modArith hd rfl
    | barrett rd a b m =>
      simp only [exec, execBarrett] at h
      split at h
      · cases h; exact .error .div0
      · cases h; exact .modArith hd rfl
    | fermat rd a =>
      simp only [exec, execFermat] at h
      split at h
      · cases h; exact .error .range
      · cases h; exact .fermat hd
    | egcd a b => cases h; exact .egcd hd
    | modinv rd a b =>
      simp only [exec, execModinv] at h
      split at h
      · cases h; exact .error .div0
      split at h
      next hg => cases h; exact .modinv hd (by simp [← EG_gcd, hg])
      next hg => cases h; exact .modinv hd (by simp [← EG_gcd, hg])

/-! ### The walk over the probe bank -/

section scan
variable (n : Nat) (ps : List Nat) (i : Nat)

theorem le_fermatScan_fst : i ≤ (fermatScan n ps i).1 := by
  induction ps generalizing i with
  | nil => exact le_rfl
  | cons p ps ih =>
    rw [fermatScan_cons]
    split
    · exact (Nat.le_succ i).trans (ih (i + 1))
    · exact le_rfl

theorem fermatScan_fst_le : (fermatScan n ps i).1 ≤ i + ps.length := by
  induction ps generalizing i with
  | nil => exact le_rfl
  | cons p ps ih =>
    rw [fermatScan_cons, List.length_cons]
    split
    · exact (ih (i + 1)).trans_eq (by omega)
    · exact Nat.le_add_right i _

/-- The walk reaches the end of the bank exactly when every probe gives 1. -/
theorem fermatScan_fst_eq_end_iff :
    (fermatScan n ps i).1 = i + ps.length ↔ ∀ q ∈ ps, q ^ (n - 1) % n = 1 := by
  induction ps generalizing i with
  | nil => simp [fermatScan]
  | cons p ps ih =>
    rw [fermatScan_cons, List.length_cons, List.forall_mem_cons, ← ih (i + 1)]
    split
    next hp => simp [hp, Nat.add_comm, Nat.add_left_comm]
    next hp => simp [hp]

/-- The walk stops at the first probe whose residue is not 1. -/
theorem fermatScan_fst_first_failure (before after : List Nat) (p : Nat)
    (hb : ∀ q ∈ before, q ^ (n - 1) % n = 1) (hp : p ^ (n - 1) % n ≠ 1) :
    (fermatScan n (before ++ p :: after) 0).1 = before.length := by
  rw [fermatScan_append n 0 _ _ hb, fermatScan_cons, if_neg hp, Nat.zero_add]

/-- The index of the walk fits FAILIDX (R41). -/
theorem failidx_val : (Fin.ofNat 16 (fermatScan n probes 0).1).val = (fermatScan n probes 0).1 := by
  have : (fermatScan n probes 0).1 ≤ 9 := fermatScan_fst_le n probes 0
  exact Nat.mod_eq_of_lt (by omega)

end scan

/-! ### The flags after a completion -/

/-- Settles O32, by the ways a command can end: only FERMAT's own end can set PRIME. -/
theorem primeFlagRule : Obligations.PrimeFlagRule := by
  intro s t h
  cases completed_of_completeCommand h with
  | error c => simp [State.afterError, c.code_ne_zero]
  | modArith hd hi =>
    refine ⟨fun hp => (nomatch hp), fun ⟨rd, rs1, hf, _⟩ => ?_⟩
    cases hd.symm.trans hf
    cases hi
  | @fermat rd rs1 hd =>
    have hend := fermatScan_fst_eq_end_iff (s.engine.reg rs1) probes 0
    rw [Nat.zero_add] at hend
    simp only [State.afterOk, beq_iff_eq, hend, hd, Except.ok.injEq, Instr.fermat.injEq, true_and]
    constructor
    · exact fun hall => ⟨rd, rs1, ⟨rfl, rfl⟩, hall⟩
    · rintro ⟨_, _, ⟨-, rfl⟩, hall⟩
      exact hall
  | egcd hd => simp [State.afterOk, hd]
  | modinv hd _ => simp [State.afterOk, hd]

/-- Settles O33, by the ways a command can end: only MODINV's own end can set NOINV. -/
theorem noInverseFlagRule : Obligations.NoInverseFlagRule := by
  intro s t h
  cases completed_of_completeCommand h with
  | error c => simp [State.afterError, c.code_ne_zero]
  | modArith hd hi =>
    refine ⟨fun hp => (nomatch hp), fun ⟨rd, rs1, rs2, hf, _⟩ => ?_⟩
    cases hd.symm.trans hf
    cases hi
  | fermat hd => simp [State.afterOk, hd]
  | egcd hd => simp [State.afterOk, hd]
  | @modinv rd rs1 rs2 _ _ hd hn =>
    simp only [State.afterOk, hn, hd, Except.ok.injEq, Instr.modinv.injEq, true_and]
    constructor
    · exact fun hg => ⟨rd, rs1, rs2, ⟨rfl, rfl, rfl⟩, hg⟩
    · rintro ⟨_, _, _, ⟨-, rfl, rfl⟩, hg⟩
      exact hg

/-- Magnitude and sign give the number back (R24). -/
theorem signed_natAbs (x : Int) : (if decide (x < 0) = true then -(x.natAbs : Int) else x.natAbs) = x := by
  split
  next hneg => have := of_decide_eq_true hneg; omega
  next hpos => have := of_decide_eq_false (eq_false_of_ne_true hpos); omega

/-- An engine that holds x and y as magnitude and sign has them as its coefficients (R24). -/
theorem signs_of_magnitudes (e : Engine) (x y : Int) (hx : e.CX = x.natAbs) (hxn : e.XNEG = decide (x < 0))
    (hy : e.CY = y.natAbs) (hyn : e.YNEG = decide (y < 0)) :
    e.coeffX = x ∧ e.coeffY = y ∧ (e.XNEG = true ↔ x < 0) ∧ (e.YNEG = true ↔ y < 0) := by
  rw [Engine.coeffX, Engine.coeffY, hx, hxn, hy, hyn, signed_natAbs, signed_natAbs]
  exact ⟨rfl, rfl, decide_eq_true_iff, decide_eq_true_iff⟩

/-- Settles O34, by the ways a command can end: EGCD and MODINV leave the triple of EG, every other end leaves the signs alone. -/
theorem signFlagsRule : Obligations.SignFlagsRule := by
  intro s t h
  cases completed_of_completeCommand h with
  | error c => exact ⟨fun ⟨_, _, _, herr⟩ => absurd herr c.code_ne_zero, fun _ => ⟨rfl, rfl⟩⟩
  | modArith hd hi =>
    refine ⟨fun ⟨j, hj, he, _⟩ => ?_, fun _ => ⟨rfl, rfl⟩⟩
    cases hd.symm.trans hj
    exact absurd (he.symm.trans (isEuclid_of_isModArith hi)) (by decide)
  | fermat hd => exact ⟨fun ⟨j, hj, he, _⟩ => (by cases hd.symm.trans hj; cases he), fun _ => ⟨rfl, rfl⟩⟩
  | egcd hd =>
    refine ⟨fun _ rs1 rs2 hop => ?_, fun hn => absurd ⟨_, hd, rfl, rfl⟩ hn⟩
    rcases hop with hop | ⟨rd, hop⟩ <;> cases hd.symm.trans hop
    exact signs_of_magnitudes _ _ _ rfl rfl rfl rfl
  | modinv hd _ =>
    refine ⟨fun _ rs1 rs2 hop => ?_, fun hn => absurd ⟨_, hd, rfl, rfl⟩ hn⟩
    rcases hop with hop | ⟨rd, hop⟩ <;> cases hd.symm.trans hop
    exact signs_of_magnitudes _ _ _ rfl rfl rfl rfl

/-- Settles O35: FERMAT's own end writes the walk's index, every other end writes 0. -/
theorem failIndexRule : Obligations.FailIndexRule := by
  intro s t h
  cases completed_of_completeCommand h with
  | error c => exact ⟨fun _ _ _ herr => absurd herr c.code_ne_zero, fun _ => rfl, Nat.zero_le 9⟩
  | modArith hd hi =>
    exact ⟨fun _ _ hf => (by cases hd.symm.trans hf; cases hi), fun _ => rfl, Nat.zero_le 9⟩
  | egcd hd => exact ⟨fun _ _ hf => (by cases hd.symm.trans hf), fun _ => rfl, Nat.zero_le 9⟩
  | modinv hd _ => exact ⟨fun _ _ hf => (by cases hd.symm.trans hf), fun _ => rfl, Nat.zero_le 9⟩
  | @fermat rd rs1 hd =>
    have hval := failidx_val (s.engine.reg rs1)
    refine ⟨fun rd' rs1' hf _ => ?_, fun hn => absurd ⟨rd, rs1, hd, rfl⟩ hn,
      hval.trans_le (fermatScan_fst_le _ probes 0)⟩
    cases hd.symm.trans hf
    refine ⟨fun before after p hsplit hb hp => ?_, fun hall => ?_, fun hzero _ htwo => ?_⟩
    · have hfirst := fermatScan_fst_first_failure _ before after p hb hp
      rw [← hsplit] at hfirst
      exact hval.trans hfirst
    · exact hval.trans ((fermatScan_fst_eq_end_iff _ probes 0).mpr hall)
    · have hone := le_fermatScan_fst (s.engine.reg rs1) [3, 5, 7, 11, 13, 17, 43, 683] 1
      have hidx : (fermatScan (s.engine.reg rs1) probes 0).1 = 0 := hval.symm.trans (congrArg Fin.val hzero)
      rw [probes, fermatScan_cons, if_pos htwo, Nat.zero_add] at hidx
      omega

/-! ### The control and status words -/

theorem idWord_toNat (c : Config) : (idWord c).toNat = 0x4D45 * 2 ^ 16 + c.nl % 2 ^ 8 * 2 ^ 8 + 0x01 := by
  rw [idWord, BitVec.toNat_ofNat]
  omega

theorem ctrlWord_eq (e : Engine) : ctrlWord e = if e.IE then 1 else 0 := by
  unfold ctrlWord
  cases e.IE <;> rfl

theorem statusWord_toNat (e : Engine) :
    (statusWord e).toNat = e.BUSY.toNat + e.DONE.toNat * 2 ^ 1 + e.PRIME.toNat * 2 ^ 2 + e.NOINV.toNat * 2 ^ 3
      + e.XNEG.toNat * 2 ^ 4 + e.YNEG.toNat * 2 ^ 5 + e.WERR.toNat * 2 ^ 6 + e.ERR.val * 2 ^ 8
      + e.FAILIDX.val * 2 ^ 12 := by
  have := e.BUSY.toNat_le; have := e.DONE.toNat_le; have := e.PRIME.toNat_le; have := e.NOINV.toNat_le
  have := e.XNEG.toNat_le; have := e.YNEG.toNat_le; have := e.WERR.toNat_le
  have := e.ERR.isLt; have := e.FAILIDX.isLt
  rw [statusWord, BitVec.toNat_ofNat]
  omega

/-- Settles O38, by cutting the constant word into its fields. -/
theorem idRegister : Obligations.IdRegister := by
  constructor
  · intro s rest hv h
    have hn := nl_le s.cfg hv
    have hopw := opw_eq s.cfg hv
    have hid := idWord_toNat s.cfg
    refine ⟨idWord s.cfg, step_r32_exact s rest 0x000 (by decide) rfl h (.inr rfl), ?_, ?_, ?_, ?_, fun h256 => ?_⟩
    iterate 4 (simp only [field]; omega)
    have hnl : s.cfg.nl = 8 := by omega
    rw [idWord, hnl]
    rfl
  · exact fun s rest w h => step_w32 s rest 0x000 (by decide) rfl w h

/-- Clearing on a set bit, in the statements' form. -/
theorem and_not_eq_ite (b c : Bool) : (b && !c) = if c then false else b := by cases c <;> simp

/-- Settles O39, by cutting the word into its fields. -/
theorem statusRegister : Obligations.StatusRegister := by
  constructor
  · intro s rest h
    have hst := statusWord_toNat s.engine
    have := s.engine.BUSY.toNat_le; have := s.engine.DONE.toNat_le; have := s.engine.PRIME.toNat_le
    have := s.engine.NOINV.toNat_le; have := s.engine.XNEG.toNat_le; have := s.engine.YNEG.toNat_le
    have := s.engine.WERR.toNat_le; have := s.engine.ERR.isLt; have := s.engine.FAILIDX.isLt
    refine ⟨statusWord s.engine, step_r32_exact s rest 0x008 (by decide) rfl h (.inr rfl),
      ?_, ?_, ?_, ?_, ?_, ?_, ?_, ?_, ?_, ?_, ?_⟩ <;> simp only [field] <;> omega
  · intro s rest w h
    rw [step_w32 s rest 0x008 (by decide) rfl w h, slotAt_status]
    simp only [writeSlot, Engine.acknowledge, bitSet_eq_getLsbD, and_not_eq_ite]

/-- Settles O8, by what a write to CMD does idle and busy. -/
theorem cmdWriteAcceptsOrDrops : Obligations.CmdWriteAcceptsOrDrops := by
  refine ⟨fun s rest w h => ?_, fun s rest h => step_r32_exact s rest 0x00C (by decide) rfl h (.inr rfl), rfl⟩
  rw [step_w32 s rest 0x00C (by decide) rfl w h, slotAt_cmd]
  constructor
  · intro hb
    simp only [writeSlot, hb, Bool.false_eq_true, if_false, Engine.accept]
  · intro hb
    simp only [writeSlot, hb, if_true, Engine.dropWrite]

/-- A write to CTRL, by bit 1 (R28). -/
theorem step_write_ctrl (s : State) (rest : List Arrival) (w : Word) (h : s.inbox = w32 s.cfg 0x004 w :: rest) :
    step s = .next { s with
      inbox := rest, engine := if w.getLsbD 1 then Engine.reset else { s.engine with IE := w.getLsbD 0 } } := by
  rw [step_w32 s rest 0x004 (by decide) rfl w h, slotAt_ctrl]
  simp only [writeSlot, bitSet_eq_getLsbD]

/-- Settles O40, by bit 1 of the word written. -/
theorem ctrlRegister : Obligations.CtrlRegister := by
  constructor
  · intro s rest w h
    rw [step_write_ctrl s rest w h]
    exact ⟨fun h1 => by rw [if_pos h1], fun h1 => by rw [h1]; rfl⟩
  · intro s rest h
    rw [← ctrlWord_eq]
    exact step_r32_exact s rest 0x004 (by decide) rfl h (.inr rfl)

/-- Settles O50: the record of reset field by field, and the two steps that give it. -/
theorem resetValues : Obligations.ResetValues := by
  refine ⟨fun k => Engine.reset_reg k, rfl, rfl, rfl, rfl, rfl, rfl, rfl, rfl, rfl, rfl, rfl, rfl, rfl, rfl, rfl, rfl, rfl,
    idWord_toNat, rfl, rfl, fun s rest h => ?_, fun s rest w h h1 => ?_⟩
  · simp only [step, h, State.resetEngine]
  · rw [step_write_ctrl s rest w h, if_pos h1]

/-! ### WERR and the interrupt output, over every step -/

/-- What a step can do to the engine: nothing, complete the running command, carry out the host's write to a slot, or reset. -/
theorem step_engine_cases {s t : State} (h : step s = .next t) :
    t.engine = s.engine ∨
    (s.engine.BUSY = true ∧ ∃ rest, s.EngineNext rest ∧ completeCommand { s with inbox := rest } = .next t) ∨
    (∃ a w slot, s.inbox.head? = some a ∧ a.Writes s.cfg w slot ∧ t.engine = writeSlot s.engine w slot) ∨
    (∃ a, s.inbox.head? = some a ∧ a.Resets s.cfg ∧ t.engine = Engine.reset) := by
  rcases step_cases s t h with ⟨_, _, _, rfl⟩ | ⟨rest, hi, hb, hc⟩ | ⟨a, rest, hi, _⟩ | ⟨rest, hi, rfl⟩ |
    ⟨polls, rest, _, rfl⟩
  · exact .inl rfl
  · exact .inr (.inl ⟨hb, rest, hi.symm, hc⟩)
  · obtain ⟨_, _, hsame | ⟨w, slot, hw, he⟩⟩ := step_access s t a rest hi h
    · exact .inl hsame
    · exact .inr (.inr (.inl ⟨_, w, slot, by rw [hi]; rfl, hw, he⟩))
  · exact .inr (.inr (.inr ⟨.hardwareReset, by rw [hi]; rfl, trivial, rfl⟩))
  · exact .inl (hostWait_engine polls rest s)

/-- A flag that is as before has neither risen nor fallen. -/
theorem same_neither_rises_nor_falls {b : Bool} {p q : Prop} :
    (b = false → b = true → p) ∧ (b = true → b = false → q) := by
  cases b <;> simp

section writeSlot
variable {e : Engine} {w : Word} {slot : Slot}

/-- A write that raises WERR was dropped: the engine is busy and the slot is CMD or an operand limb. -/
theorem writeSlot_WERR_rises (h0 : e.WERR = false) (h1 : (writeSlot e w slot).WERR = true) :
    e.BUSY = true ∧ (slot = .cmd ∨ ∃ i j, slot = .operand i j) := by
  cases slot with
  | cmd =>
    simp only [writeSlot] at h1
    split at h1
    next hb => exact ⟨hb, .inl rfl⟩
    next => simp [h0] at h1
  | operand i j =>
    simp only [writeSlot] at h1
    split at h1
    next hb => exact ⟨hb, .inr ⟨i, j, rfl⟩⟩
    next => simp [h0] at h1
  | ctrl =>
    simp only [writeSlot] at h1
    split at h1
    next => cases h1
    next => simp [h0] at h1
  | status => simp [writeSlot, h0] at h1
  | id | result _ _ | reserved => simp [writeSlot, h0] at h1

/-- A write that clears WERR is STATUS with bit 6, or a soft reset. -/
theorem writeSlot_WERR_falls (h1 : e.WERR = true) (h0 : (writeSlot e w slot).WERR = false) :
    (slot = .status ∧ bitSet w 6 = true) ∨ (slot = .ctrl ∧ bitSet w 1 = true) := by
  cases slot with
  | status => exact .inl ⟨rfl, by simpa [writeSlot, h1] using h0⟩
  | ctrl =>
    simp only [writeSlot] at h0
    split at h0
    next hb => exact .inr ⟨rfl, hb⟩
    next => simp [h1] at h0
  | cmd | operand _ _ => simp only [writeSlot] at h0; split at h0 <;> simp [h1] at h0
  | id | result _ _ | reserved => simp [writeSlot, h1] at h0

/-- While busy, a write to CMD or to an operand limb is dropped (R30, R211). -/
theorem writeSlot_busy_drops (hb : e.BUSY = true) (hs : slot = .cmd ∨ ∃ i j, slot = .operand i j) :
    writeSlot e w slot = e.dropWrite := by
  rcases hs with rfl | ⟨i, j, rfl⟩ <;> simp [writeSlot, hb]

/-- A write that raises irq enables the interrupt of a pending completion. -/
theorem writeSlot_irq_rises (h0 : e.irq = false) (h1 : (writeSlot e w slot).irq = true) :
    slot = .ctrl ∧ e.DONE = true ∧ bitSet w 0 = true ∧ bitSet w 1 = false := by
  cases slot with
  | ctrl =>
    simp only [writeSlot] at h1
    split at h1
    next => cases h1
    next hb =>
      obtain ⟨hw, hd⟩ : bitSet w 0 = true ∧ e.DONE = true := by simpa [Engine.irq] using h1
      exact ⟨rfl, hd, hw, by simpa using hb⟩
  | cmd | operand _ _ => simp only [writeSlot] at h1; split at h1 <;> simp_all [Engine.irq]
  | status => simp_all [writeSlot, Engine.irq]
  | id | result _ _ | reserved => simp [writeSlot, h0] at h1

/-- A write that lowers irq clears DONE or IE: an accept, STATUS with bit 1, CTRL with bit 0 clear, or a soft reset. -/
theorem writeSlot_irq_falls (h1 : e.irq = true) (h0 : (writeSlot e w slot).irq = false) :
    (slot = .cmd ∧ e.BUSY = false) ∨ (slot = .status ∧ bitSet w 1 = true) ∨ (slot = .ctrl ∧ bitSet w 0 = false) ∨
      (slot = .ctrl ∧ bitSet w 1 = true) := by
  obtain ⟨hie, hd⟩ : e.IE = true ∧ e.DONE = true := by simpa [Engine.irq] using h1
  cases slot with
  | cmd =>
    simp only [writeSlot] at h0
    split at h0
    next => simp [Engine.irq, hie, hd] at h0
    next hb => exact .inl ⟨rfl, by simpa using hb⟩
  | status => exact .inr (.inl ⟨rfl, by simpa [writeSlot, Engine.irq, hie, hd] using h0⟩)
  | ctrl =>
    simp only [writeSlot] at h0
    split at h0
    next hb => exact .inr (.inr (.inr ⟨rfl, hb⟩))
    next => exact .inr (.inr (.inl ⟨rfl, by simpa [Engine.irq, hd] using h0⟩))
  | operand _ _ => simp only [writeSlot] at h0; split at h0 <;> simp [Engine.irq, hie, hd] at h0
  | id | result _ _ | reserved => simp [writeSlot, h1] at h0

end writeSlot

/-- Settles O54, by what a step can do to the engine. -/
theorem werrIsSticky : Obligations.WerrIsSticky := by
  refine ⟨fun s t h => ?_, fun s rest a w hi hb hw => ?_⟩
  · rcases step_engine_cases h with he | ⟨_, rest, _, hc⟩ | ⟨a, w, slot, ha, hw, he⟩ | ⟨a, ha, hr, he⟩
    · rw [he]
      exact same_neither_rises_nor_falls
    · obtain ⟨-, -, -, -, -, hwerr, -⟩ := completeCommand_frame _ t hc
      rw [hwerr]
      exact same_neither_rises_nor_falls
    · rw [he]
      constructor
      · intro h0 h1
        obtain ⟨hb, rfl | ⟨i, j, rfl⟩⟩ := writeSlot_WERR_rises h0 h1
        · exact ⟨hb, a, w, ha, .inl hw⟩
        · exact ⟨hb, a, w, ha, .inr ⟨i, j, hw⟩⟩
      · intro h1 h0
        rcases writeSlot_WERR_falls h1 h0 with ⟨rfl, h6⟩ | ⟨rfl, hsrst⟩
        · exact ⟨a, ha, .inl ⟨w, hw, bitSet_eq_getLsbD w 6 ▸ h6⟩⟩
        · exact ⟨a, ha, .inr (resets_of_writes s.cfg a w hw hsrst)⟩
    · rw [he]
      exact ⟨fun _ h1 => (nomatch h1), fun _ _ => ⟨a, ha, .inr hr⟩⟩
  · obtain ⟨slot, hdrop, off, hoff, hal, hs, rfl⟩ :
        ∃ slot, (slot = .cmd ∨ ∃ i j, slot = .operand i j) ∧ a.Writes s.cfg w slot := by
      rcases hw with hw | ⟨i, j, hw⟩
      · exact ⟨_, .inl rfl, hw⟩
      · exact ⟨_, .inr ⟨i, j, rfl⟩, hw⟩
    refine ⟨_, step_w32 s rest off hoff hal w hi, ?_⟩
    rw [hs, writeSlot_busy_drops hb hdrop]
    rfl

/-- Settles O56, by what a step can do to the engine. -/
theorem interruptOutput : Obligations.InterruptOutput := by
  intro s t h
  refine ⟨Bool.and_eq_true_iff, ?_⟩
  rcases step_engine_cases h with he | ⟨hb, rest, hnext, hc⟩ | ⟨a, w, slot, ha, hw, he⟩ | ⟨a, ha, hr, he⟩
  · rw [he]
    exact same_neither_rises_nor_falls
  · obtain ⟨-, -, -, -, hie, -, -, hdone, -⟩ := completeCommand_frame _ t hc
    have hirq : t.engine.irq = s.engine.IE := by simp [Engine.irq, hie, hdone]
    rw [hirq]
    refine ⟨fun _ h1 => .inl ⟨hb, h1, rest, hnext⟩, fun h1 h0 => ?_⟩
    simp [Engine.irq, h0] at h1
  · rw [he]
    constructor
    · intro h0 h1
      obtain ⟨rfl, hd, hw0, hw1⟩ := writeSlot_irq_rises h0 h1
      exact .inr ⟨hd, a, w, ha, hw, bitSet_eq_getLsbD w 0 ▸ hw0, bitSet_eq_getLsbD w 1 ▸ hw1⟩
    · intro h1 h0
      refine ⟨a, ha, ?_⟩
      rcases writeSlot_irq_falls h1 h0 with ⟨rfl, hidle⟩ | ⟨rfl, hack⟩ | ⟨rfl, hdis⟩ | ⟨rfl, hsrst⟩
      · exact .inl ⟨hidle, w, hw⟩
      · exact .inr (.inl ⟨w, hw, bitSet_eq_getLsbD w 1 ▸ hack⟩)
      · exact .inr (.inr (.inl ⟨w, hw, bitSet_eq_getLsbD w 0 ▸ hdis⟩))
      · exact .inr (.inr (.inr (resets_of_writes s.cfg a w hw hsrst)))
  · rw [he]
    exact ⟨fun _ h1 => (nomatch h1), fun _ _ => ⟨a, ha, .inr (.inr (.inr hr))⟩⟩

end Sys2Proof.Machine
end

section
/-! PROOFS, family memory: the limbs of the operand and result windows (R54, R55), the reserved offsets (R56, R57), reads
(R64), refused accesses (R58 to R60). -/

namespace Sys2Proof.Machine

/-! ### Refused accesses -/

theorem inWindow_eq_true_iff (c : Config) (addr : Nat) :
    inWindow c addr = true ↔ c.base ≤ addr ∧ addr < c.base + 0x2000 := by
  simp [inWindow]

theorem refusedAccess_eq_true_iff (off : Nat) (size : AccessSize) :
    refusedAccess off size = true ↔ size ≠ .word ∨ off % 4 ≠ 0 := by
  simp [refusedAccess]

/-- A refused access of the window is a fault (R60). -/
theorem hostAccess_refused (a : BusAccess) (s : State) (hin : inWindow s.cfg a.addr = true)
    (hr : refusedAccess (a.addr - s.cfg.base) a.size = true) :
    hostAccess a s = .fault (.busError (a.addr - s.cfg.base) a.size) := by
  simp [hostAccess, hin, hr]

/-- Any other access of the window answers a next state. -/
theorem hostAccess_accepted (a : BusAccess) (s : State) (hin : inWindow s.cfg a.addr = true)
    (hr : refusedAccess (a.addr - s.cfg.base) a.size = false) : ∃ t, hostAccess a s = .next t := by
  obtain ⟨addr, size, kind⟩ := a
  cases kind with
  | read => exact ⟨hostRead (addr - s.cfg.base) s, by simp [hostAccess, hin, hr]⟩
  | write w => exact ⟨hostWrite (addr - s.cfg.base) w s, by simp [hostAccess, hin, hr]⟩

theorem step_eq_hostAccess (s : State) (rest : List Arrival) (a : BusAccess) (h : s.inbox = .access a :: rest) :
    step s = hostAccess a { s with inbox := rest } := by
  simp [step, h]

/-- Settles O46, by whether the engine refuses the access. -/
theorem refusedAccessesFault : Obligations.RefusedAccessesFault := by
  intro s rest a h hlo hhi
  have hin : inWindow s.cfg a.addr = true := (inWindow_eq_true_iff _ _).mpr ⟨hlo, hhi⟩
  rw [step_eq_hostAccess s rest a h]
  constructor
  · intro hbad
    exact hostAccess_refused a _ hin ((refusedAccess_eq_true_iff _ _).mpr hbad)
  · rintro ⟨hsize, hal⟩
    refine hostAccess_accepted a _ hin (Bool.eq_false_iff.mpr fun hr => ?_)
    rcases (refusedAccess_eq_true_iff _ _).mp hr with hbad | hbad
    · exact hbad hsize
    · exact hbad hal

/-! ### The limbs of the register windows -/

theorem operandOffset_inWindow (i : RegIdx) (j : Nat) (hj : j < 64) :
    operandOffset i j < 0x2000 ∧ operandOffset i j % 4 = 0 := by
  have := i.isLt
  unfold operandOffset
  omega

theorem resultOffset_inWindow (r : ResultReg) (j : Nat) (hj : j < 64) :
    resultOffset r j < 0x2000 ∧ resultOffset r j % 4 = 0 := by
  cases r <;> simp only [resultOffset] <;> omega

/-- Settles O41: the offset names the limb, which an idle engine reads and writes exactly, and a busy one answers with a draw
or drops. -/
theorem operandWindow : Obligations.OperandWindow := by
  intro s rest i j hv hj
  have h64 : j < 64 := hj.trans_le (nl_le s.cfg hv)
  obtain ⟨hoff, hal⟩ := operandOffset_inWindow i j h64
  have hslot := slotAt_operand s.cfg i j hj h64
  refine ⟨fun h => ⟨fun hb => ⟨limb (s.engine.reg i) j, limb_toNat _ _, ?_⟩, fun hb => ?_⟩,
    fun w h => ⟨fun hb => ⟨setLimb (s.engine.reg i) j w, ?_, fun k hk => ?_, ?_⟩, fun hb => ?_⟩⟩
  · rw [step_r32_exact s rest _ hoff hal h (.inl hb), operandOffset, hslot, slotWord]
  · rw [step_r32_draw s rest _ hoff hal h hb (by rw [operandOffset, hslot]; rfl), operandOffset]
  · rw [← limb_toNat, limb_setLimb_same]
  · rw [← limb_toNat, ← limb_toNat, limb_setLimb_other _ j k w hk]
  · rw [step_w32 s rest _ hoff hal w h, operandOffset, hslot]
    simp only [writeSlot, hb, Bool.false_eq_true, if_false, Engine.setReg]
  · rw [step_w32 s rest _ hoff hal w h, operandOffset, hslot, writeSlot_busy_drops hb (.inr ⟨i, j, rfl⟩)]
    rfl

/-- Settles O42: the offset names the limb, which a write ignores. -/
theorem resultWindow_holds : Obligations.ResultWindow := by
  intro s rest r j hv hj
  have h64 : j < 64 := hj.trans_le (nl_le s.cfg hv)
  obtain ⟨hoff, hal⟩ := resultOffset_inWindow r j h64
  have hslot := slotAt_result s.cfg r j hj h64
  refine ⟨fun h => ⟨fun hb => ⟨limb (s.engine.resultReg r) j, limb_toNat _ _, ?_⟩, fun hb => ?_⟩, fun w h => ?_⟩
  · rw [step_r32_exact s rest _ hoff hal h (.inl hb), hslot, slotWord]
  · rw [step_r32_draw s rest _ hoff hal h hb (by rw [hslot]; rfl)]
  · rw [step_w32 s rest _ hoff hal w h, hslot, writeSlot]

/-! ### Reserved offsets, and reads -/

/-- Settles O43: the offset names a reserved slot, which holds 0, reads exactly also while busy, and ignores writes. -/
theorem reservedOffsetsReadZero : Obligations.ReservedOffsetsReadZero := by
  intro s rest off hoff hal hres
  have hslot := slotAt_reserved s.cfg off hres
  refine ⟨fun h => ?_, fun w h => ?_⟩
  · rw [step_r32_exact s rest off hoff hal h (.inr (by rw [hslot]; rfl)), hslot, slotWord]
  · rw [step_w32 s rest off hoff hal w h, hslot, writeSlot]

/-- An aligned offset that is no limb offset names no limb. -/
theorem isLimb_slotAt_eq_false (c : Config) (off : Nat) (hal : off % 4 = 0) (hl : ¬LimbOffset c off) :
    (slotAt c off).isLimb = false := by
  have hcases := slotAt_cases c off hal
  simp only [hl, false_and, not_false_eq_true, true_and, false_or] at hcases
  rcases hcases with ⟨_, e⟩ | ⟨_, e⟩ | ⟨_, e⟩ | ⟨_, e⟩ | ⟨_, e⟩ <;> rw [e] <;> rfl

/-- A step that carries out a host read changes neither the engine nor the parameters, inside the window or outside. -/
theorem step_read_frame (s t : State) (rest : List Arrival) (a : BusAccess) (h : s.inbox = .access a :: rest)
    (hk : a.kind = .read) (hs : step s = .next t) : t.engine = s.engine ∧ t.cfg = s.cfg ∧ t.inbox = rest := by
  rw [step_eq_hostAccess s rest a h] at hs
  rcases hostAccess_cases a _ t hs with ⟨_, rfl⟩ | ⟨_, _, _, rfl⟩ | ⟨w, _, _, hw, _⟩
  · exact ⟨rfl, rfl, rfl⟩
  · exact ⟨hostRead_engine _ _, hostRead_cfg _ _, hostRead_inbox _ _⟩
  · cases hk.symm.trans hw

/-- Settles O48: a read leaves the engine alone, so the second of two exact reads finds the same word. -/
theorem readsChangeNothing : Obligations.ReadsChangeNothing := by
  refine ⟨step_read_frame, fun s rest off hoff hal hx h => ?_⟩
  have hexact : s.engine.BUSY = false ∨ (slotAt s.cfg off).isLimb = false :=
    hx.imp_right (isLimb_slotAt_eq_false s.cfg off hal)
  have hfirst := step_r32_exact s (r32 s.cfg off :: rest) off hoff hal h hexact
  have hsecond := step_r32_exact { s with
      inbox := r32 s.cfg off :: rest,
      reads := ⟨off, slotWord s.cfg s.engine (slotAt s.cfg off)⟩ :: s.reads } rest off hoff hal rfl hexact
  exact ⟨_, by rw [run_succ 1 _ _ hfirst, run_succ 0 _ _ hsecond, run_zero]⟩

end Sys2Proof.Machine
end

section
/-! PROOFS, family encoding: the masks and matches of the six commands (R87), the illegal words (R83, R88). -/

namespace Sys2Proof

/-! ### The fields of a word's record -/

section fieldsOf
variable (w : Word)

@[simp] theorem fieldsOf_op_val : (fieldsOf w).op.val = field w 5 0 := Nat.mod_eq_of_lt (field_lt w 5 0)
@[simp] theorem fieldsOf_res6_val : (fieldsOf w).res6.val = field w 7 6 := Nat.mod_eq_of_lt (field_lt w 7 6)
@[simp] theorem fieldsOf_rd_val : (fieldsOf w).rd.val = field w 10 8 := Nat.mod_eq_of_lt (field_lt w 10 8)
@[simp] theorem fieldsOf_res11_val : (fieldsOf w).res11.val = field w 11 11 := Nat.mod_eq_of_lt (field_lt w 11 11)
@[simp] theorem fieldsOf_rs1_val : (fieldsOf w).rs1.val = field w 14 12 := Nat.mod_eq_of_lt (field_lt w 14 12)
@[simp] theorem fieldsOf_res15_val : (fieldsOf w).res15.val = field w 15 15 := Nat.mod_eq_of_lt (field_lt w 15 15)
@[simp] theorem fieldsOf_rs2_val : (fieldsOf w).rs2.val = field w 18 16 := Nat.mod_eq_of_lt (field_lt w 18 16)
@[simp] theorem fieldsOf_res19_val : (fieldsOf w).res19.val = field w 19 19 := Nat.mod_eq_of_lt (field_lt w 19 19)
@[simp] theorem fieldsOf_rs3_val : (fieldsOf w).rs3.val = field w 22 20 := Nat.mod_eq_of_lt (field_lt w 22 20)
@[simp] theorem fieldsOf_res23_val : (fieldsOf w).res23.val = field w 31 23 := Nat.mod_eq_of_lt (field_lt w 31 23)

/-- The reserved fields of R83 are the five the record checks. -/
theorem fieldsOf_reservedZero_iff :
    (fieldsOf w).reservedZero = true ↔
      field w 7 6 = 0 ∧ field w 11 11 = 0 ∧ field w 15 15 = 0 ∧ field w 19 19 = 0 ∧ field w 31 23 = 0 := by
  simp [CmdFields.reservedZero, Fin.ext_iff, and_assoc]

theorem fieldsOf_opcodeAssigned_iff :
    (fieldsOf w).opcodeAssigned = true ↔ 1 ≤ field w 5 0 ∧ field w 5 0 ≤ 6 := by
  simp [CmdFields.opcodeAssigned]

/-- Only FERMAT, EGCD and MODINV leave fields unused (R86). -/
theorem fieldsOf_unusedZero_iff :
    (fieldsOf w).unusedZero = true ↔
      (field w 5 0 = 4 → field w 18 16 = 0 ∧ field w 22 20 = 0) ∧
      (field w 5 0 = 5 → field w 10 8 = 0 ∧ field w 22 20 = 0) ∧
      (field w 5 0 = 6 → field w 22 20 = 0) := by
  simp only [CmdFields.unusedZero, fieldsOf_op_val]
  split
  next h => simp [h, Fin.ext_iff]
  next h => simp [h, Fin.ext_iff]
  next h => simp [h, Fin.ext_iff]
  next h4 h5 h6 => exact iff_of_true rfl ⟨fun h => (h4 h).elim, fun h => (h5 h).elim, fun h => (h6 h).elim⟩

end fieldsOf

/-! ### The mask of a field -/

/-- The word whose set bits are hi down to lo: what R87's masks are put together from. -/
def fieldMask (hi lo : Nat) : Word := BitVec.ofNat 32 ((2 ^ (hi + 1 - lo) - 1) * 2 ^ lo)

/-- The bits under a field's mask are the field, at its place. -/
theorem and_fieldMask_toNat (w : Word) (hi lo : Nat) (hhi : hi < 32) (hlo : lo ≤ hi) :
    (w &&& fieldMask hi lo).toNat = field w hi lo * 2 ^ lo := by
  have hfit : (2 ^ (hi + 1 - lo) - 1) * 2 ^ lo < 2 ^ 32 :=
    calc (2 ^ (hi + 1 - lo) - 1) * 2 ^ lo
      _ < 2 ^ (hi + 1 - lo) * 2 ^ lo := by gcongr; exact Nat.sub_lt (by positivity) one_pos
      _ = 2 ^ (hi + 1) := by rw [← pow_add, Nat.sub_add_cancel (by omega)]
      _ ≤ 2 ^ 32 := Nat.pow_le_pow_right two_pos hhi
  rw [BitVec.toNat_and, fieldMask, BitVec.toNat_ofNat, Nat.mod_eq_of_lt hfit, field]
  refine Nat.eq_of_testBit_eq fun i => ?_
  simp only [Nat.testBit_and, Nat.testBit_mul_two_pow, Nat.testBit_two_pow_sub_one, Nat.testBit_mod_two_pow,
    Nat.testBit_div_two_pow]
  by_cases hi' : lo ≤ i
  · simp [hi', Nat.sub_add_cancel hi', Bool.and_comm]
  · simp [hi']

/-- No bit of a field is set exactly when the field is 0. -/
theorem and_fieldMask_eq_zero_iff (w : Word) (hi lo : Nat) (hhi : hi < 32) (hlo : lo ≤ hi) :
    w &&& fieldMask hi lo = 0 ↔ field w hi lo = 0 := by
  rw [← BitVec.toNat_inj, and_fieldMask_toNat w hi lo hhi hlo]
  simp

/-- The opcode's field stands at bit 0, so its masked bits are its value. -/
theorem and_opMask_eq_iff (w k : Word) : w &&& fieldMask 5 0 = k ↔ field w 5 0 = k.toNat := by
  rw [← BitVec.toNat_inj, and_fieldMask_toNat w 5 0 (by omega) (by omega), pow_zero, mul_one]

/-- No bit under two masks together is set exactly when none is set under either. -/
theorem and_or_eq_zero_iff (w m m' : Word) : w &&& (m ||| m') = 0 ↔ w &&& m = 0 ∧ w &&& m' = 0 := by
  rw [BitVec.and_or_distrib_left]
  exact BitVec.or_eq_zero_iff

/-- A match that lies under the first of two disjoint masks says: the match under the first, 0 under the second. -/
theorem and_or_eq_iff (w m m' k : Word) (hk : k &&& m = k) (hk' : k &&& m' = 0) :
    w &&& (m ||| m') = k ↔ w &&& m = k ∧ w &&& m' = 0 := by
  constructor
  · intro h
    have under (n : Word) (hn : (m ||| m') &&& n = n) : w &&& n = k &&& n := by rw [← h, BitVec.and_assoc, hn]
    have hm : (m ||| m') &&& m = m := by ext i; simp +contextual
    have hm' : (m ||| m') &&& m' = m' := by ext i; simp +contextual
    exact ⟨(under m hm).trans hk, (under m' hm').trans hk'⟩
  · rintro ⟨h, h'⟩
    rw [BitVec.and_or_distrib_left, h, h']
    exact BitVec.or_zero

/-- The reserved mask of R83 covers exactly the reserved fields. -/
theorem and_reservedMask_eq_zero_iff (w : Word) :
    w &&& 0xFF8888C0 = 0 ↔
      field w 7 6 = 0 ∧ field w 11 11 = 0 ∧ field w 15 15 = 0 ∧ field w 19 19 = 0 ∧ field w 31 23 = 0 := by
  have hmask : (0xFF8888C0 : Word) =
      fieldMask 7 6 ||| (fieldMask 11 11 ||| (fieldMask 15 15 ||| (fieldMask 19 19 ||| fieldMask 31 23))) := by decide
  simp only [hmask, and_or_eq_zero_iff, and_fieldMask_eq_zero_iff, Nat.reduceLT, Nat.reduceLeDiff]

/-- The row of a command that uses every field: its mask is OP and the reserved bits. -/
theorem and_fullRow_eq_iff (w k : Word) (hop : k &&& fieldMask 5 0 = k) (hres : k &&& 0xFF8888C0 = 0) :
    w &&& 0xFF8888FF = k ↔ field w 5 0 = k.toNat ∧ w &&& 0xFF8888C0 = 0 := by
  have hmask : (0xFF8888FF : Word) = fieldMask 5 0 ||| 0xFF8888C0 := by decide
  rw [hmask, and_or_eq_iff w _ _ k hop hres, and_opMask_eq_iff]

/-- The row of a command that does not use the bits `unused`: its mask is OP, the reserved bits and those. -/
theorem and_row_eq_iff (w mask unused k : Word) (hmask : mask = fieldMask 5 0 ||| (0xFF8888C0 ||| unused))
    (hop : k &&& fieldMask 5 0 = k) (hrest : k &&& (0xFF8888C0 ||| unused) = 0) :
    w &&& mask = k ↔ field w 5 0 = k.toNat ∧ w &&& 0xFF8888C0 = 0 ∧ w &&& unused = 0 := by
  rw [hmask, and_or_eq_iff w _ _ k hop hrest, and_opMask_eq_iff, and_or_eq_zero_iff]

/-! ### The command of a word -/

theorem CmdFields.eq_iff (f g : CmdFields) :
    f = g ↔ f.op = g.op ∧ f.res6 = g.res6 ∧ f.rd = g.rd ∧ f.res11 = g.res11 ∧ f.rs1 = g.rs1 ∧ f.res15 = g.res15 ∧
      f.rs2 = g.rs2 ∧ f.res19 = g.res19 ∧ f.rs3 = g.rs3 ∧ f.res23 = g.res23 := by
  cases f; cases g; simp

/-- A record decodes to a command exactly when it is the command's record (R86). -/
theorem decodeFields_eq_ok_iff (f : CmdFields) (i : Instr) : decodeFields f = .ok i ↔ f = i.fields := by
  constructor
  · intro h
    unfold decodeFields at h
    split at h
    case isFalse => cases h
    case isTrue hres =>
      simp only [CmdFields.reservedZero, Bool.and_eq_true, beq_iff_eq, and_assoc] at hres
      split at h
      case h_1 hop | h_2 hop | h_3 hop =>
        cases h
        simpa [CmdFields.eq_iff, Instr.fields, hres, Fin.ext_iff] using hop
      case h_4 hop | h_5 hop | h_6 hop =>
        split at h
        case isFalse => cases h
        case isTrue hunused =>
          cases h
          simp only [CmdFields.unusedZero, hop, Bool.and_eq_true, beq_iff_eq] at hunused
          simpa [CmdFields.eq_iff, Instr.fields, hres, hunused, Fin.ext_iff] using hop
      case h_7 => cases h
  · rintro rfl
    cases i <;> rfl

/-- A word decodes to a command exactly when it has the command's opcode and operands, and no reserved bit. -/
theorem decode_eq_ok_iff (w : Word) (i : Instr) :
    decode w = .ok i ↔ field w 5 0 = i.fields.op.val ∧ w &&& 0xFF8888C0 = 0 ∧ (fieldsOf w).rd = i.fields.rd ∧
      (fieldsOf w).rs1 = i.fields.rs1 ∧ (fieldsOf w).rs2 = i.fields.rs2 ∧ (fieldsOf w).rs3 = i.fields.rs3 := by
  have hres : i.fields.res6 = 0 ∧ i.fields.res11 = 0 ∧ i.fields.res15 = 0 ∧ i.fields.res19 = 0 ∧ i.fields.res23 = 0 := by
    cases i <;> exact ⟨rfl, rfl, rfl, rfl, rfl⟩
  rw [decode, decodeFields_eq_ok_iff, CmdFields.eq_iff, and_reservedMask_eq_zero_iff]
  simp only [hres, Fin.ext_iff, fieldsOf_op_val, fieldsOf_res6_val, fieldsOf_res11_val, fieldsOf_res15_val,
    fieldsOf_res19_val, fieldsOf_res23_val, Fin.val_zero]
  tauto

section decode
variable (w : Word)

theorem fieldsOf_rd_eq_zero_iff : (fieldsOf w).rd = 0 ↔ w &&& fieldMask 10 8 = 0 := by
  rw [and_fieldMask_eq_zero_iff w 10 8 (by omega) (by omega), Fin.ext_iff, fieldsOf_rd_val, Fin.val_zero]

theorem fieldsOf_rs2_eq_zero_iff : (fieldsOf w).rs2 = 0 ↔ w &&& fieldMask 18 16 = 0 := by
  rw [and_fieldMask_eq_zero_iff w 18 16 (by omega) (by omega), Fin.ext_iff, fieldsOf_rs2_val, Fin.val_zero]

theorem fieldsOf_rs3_eq_zero_iff : (fieldsOf w).rs3 = 0 ↔ w &&& fieldMask 22 20 = 0 := by
  rw [and_fieldMask_eq_zero_iff w 22 20 (by omega) (by omega), Fin.ext_iff, fieldsOf_rs3_val, Fin.val_zero]

/-! The six commands, each by its opcode, the reserved bits and its unused fields (R85). -/

theorem decode_modexp_iff : (∃ rd a e m, decode w = .ok (.modexp rd a e m)) ↔
    field w 5 0 = 1 ∧ w &&& 0xFF8888C0 = 0 := by
  simp [decode_eq_ok_iff, Instr.fields]

theorem decode_montmul_iff : (∃ rd a b m, decode w = .ok (.montmul rd a b m)) ↔
    field w 5 0 = 2 ∧ w &&& 0xFF8888C0 = 0 := by
  simp [decode_eq_ok_iff, Instr.fields]

theorem decode_barrett_iff : (∃ rd hi lo m, decode w = .ok (.barrett rd hi lo m)) ↔
    field w 5 0 = 3 ∧ w &&& 0xFF8888C0 = 0 := by
  simp [decode_eq_ok_iff, Instr.fields]

theorem decode_fermat_iff : (∃ rd n, decode w = .ok (.fermat rd n)) ↔
    field w 5 0 = 4 ∧ w &&& 0xFF8888C0 = 0 ∧ w &&& (fieldMask 18 16 ||| fieldMask 22 20) = 0 := by
  rw [and_or_eq_zero_iff, ← fieldsOf_rs2_eq_zero_iff, ← fieldsOf_rs3_eq_zero_iff]
  simp [decode_eq_ok_iff, Instr.fields]

theorem decode_egcd_iff : (∃ a b, decode w = .ok (.egcd a b)) ↔
    field w 5 0 = 5 ∧ w &&& 0xFF8888C0 = 0 ∧ w &&& (fieldMask 10 8 ||| fieldMask 22 20) = 0 := by
  rw [and_or_eq_zero_iff, ← fieldsOf_rd_eq_zero_iff, ← fieldsOf_rs3_eq_zero_iff]
  simp [decode_eq_ok_iff, Instr.fields]

theorem decode_modinv_iff : (∃ rd a b, decode w = .ok (.modinv rd a b)) ↔
    field w 5 0 = 6 ∧ w &&& 0xFF8888C0 = 0 ∧ w &&& fieldMask 22 20 = 0 := by
  rw [← fieldsOf_rs3_eq_zero_iff]
  simp [decode_eq_ok_iff, Instr.fields]

end decode

/-! ### The opcode table -/

/-- R87's table: the mask and the match of each command. -/
def opcodeRows : List (Word × Word) :=
  [(0xFF8888FF, 1), (0xFF8888FF, 2), (0xFF8888FF, 3), (0xFFFF88FF, 4), (0xFFF88FFF, 5), (0xFFF888FF, 6)]

/-- Every row's mask covers OP, and its match is an opcode. -/
theorem opcodeRows_op : ∀ row ∈ opcodeRows, row.1 &&& 0x3F = 0x3F ∧ row.2 &&& 0x3F = row.2 := by
  simp [opcodeRows]

theorem opcodeRows_match_injective : ∀ row ∈ opcodeRows, ∀ row' ∈ opcodeRows, row.2 = row'.2 → row = row' := by
  simp [opcodeRows]

/-- A row that matches a word has the word's opcode as its match. -/
theorem and_op_of_row_matches {w : Word} {row : Word × Word} (hrow : row ∈ opcodeRows) (h : w &&& row.1 = row.2) :
    w &&& 0x3F = row.2 := by
  obtain ⟨hmask, hmatch⟩ := opcodeRows_op row hrow
  rw [← hmask, ← BitVec.and_assoc, h, hmatch]

/-- Settles O4: each row says the opcode, the reserved bits and the unused fields, and two rows that match one word have the
word's opcode in common. -/
theorem decodeIsMaskAndMatch : Obligations.DecodeIsMaskAndMatch := by
  refine ⟨fun w => ⟨?_, ?_, ?_, ?_, ?_, ?_⟩, by decide, by decide, by decide, by decide,
    fun w mask₁ match₁ mask₂ match₂ hrow₁ hrow₂ h₁ h₂ => ?_⟩
  · exact (decode_modexp_iff w).trans (and_fullRow_eq_iff w 1 (by decide) (by decide)).symm
  · exact (decode_montmul_iff w).trans (and_fullRow_eq_iff w 2 (by decide) (by decide)).symm
  · exact (decode_barrett_iff w).trans (and_fullRow_eq_iff w 3 (by decide) (by decide)).symm
  · exact (decode_fermat_iff w).trans (and_row_eq_iff w _ _ 4 (by decide) (by decide) (by decide)).symm
  · exact (decode_egcd_iff w).trans (and_row_eq_iff w _ _ 5 (by decide) (by decide) (by decide)).symm
  · exact (decode_modinv_iff w).trans (and_row_eq_iff w _ _ 6 (by decide) (by decide) (by decide)).symm
  · exact opcodeRows_match_injective _ hrow₁ _ hrow₂
      ((and_op_of_row_matches hrow₁ h₁).symm.trans (and_op_of_row_matches hrow₂ h₂))

/-- Settles O5: a word is illegal when its record fails one of the three checks. -/
theorem illegalWordsExactly : Obligations.IllegalWordsExactly := by
  intro w
  refine ⟨by rw [Ne, and_reservedMask_eq_zero_iff]; tauto, ?_⟩
  have hlegal : (∃ i, decode w = .ok i) ↔ (fieldsOf w).legal = true := decodeFields_ok_iff (fieldsOf w)
  simp only [CmdFields.legal, Bool.and_eq_true, fieldsOf_reservedZero_iff, ← and_reservedMask_eq_zero_iff,
    fieldsOf_opcodeAssigned_iff, fieldsOf_unusedZero_iff] at hlegal
  have herr : (∃ r, decode w = .error r) ↔ ¬ ∃ i, decode w = .ok i := by cases decode w <;> simp
  rw [herr, hlegal]
  by_cases hr : w &&& 0xFF8888C0 = 0
  · simp only [hr, ne_eq, not_true_eq_false, false_or, true_and]
    omega
  · simp only [hr, ne_eq, not_false_eq_true, true_or, false_and]

end Sys2Proof
end

section
/-! PROOFS, family modarith: a product by two MONTMULs (R110), and that MODEXP and FERMAT see only their operands' values
(R104, R140). -/

namespace Sys2Proof.Machine

/-! ### The state after a command that ends without error (R43) -/

section afterOk
variable (s : State) (e : Engine) (p n : Bool) (idx : Fin 16) (k : RegIdx)
@[simp] theorem State.afterOk_cfg : (s.afterOk e p n idx).cfg = s.cfg := rfl
@[simp] theorem State.afterOk_reg : (s.afterOk e p n idx).engine.reg k = e.reg k := rfl
@[simp] theorem State.afterOk_ERR : (s.afterOk e p n idx).engine.ERR = 0 := rfl
@[simp] theorem State.afterOk_PRIME : (s.afterOk e p n idx).engine.PRIME = p := rfl
@[simp] theorem State.afterOk_FAILIDX : (s.afterOk e p n idx).engine.FAILIDX = idx := rfl
end afterOk

/-! ### The commands without error, as states -/

section commands
variable (rd rs1 rs2 rs3 : RegIdx) (s : State)

theorem exec_modexp_eq_afterOk (h : s.engine.reg rs3 ≠ 0) :
    exec (.modexp rd rs1 rs2 rs3) s = .next (s.afterOk
      (s.engine.setReg rd (s.engine.reg rs1 ^ s.engine.reg rs2 % s.engine.reg rs3)) false false 0) := by
  rw [← powMod_eq]
  exact execModexp_ok rd rs1 rs2 rs3 s h

theorem exec_montmul_eq_afterOk (hodd : s.engine.reg rs3 % 2 = 1) (ha : s.engine.reg rs1 < s.engine.reg rs3)
    (hb : s.engine.reg rs2 < s.engine.reg rs3) :
    exec (.montmul rd rs1 rs2 rs3) s = .next (s.afterOk
      (s.engine.setReg rd (montProduct s.cfg (s.engine.reg rs1) (s.engine.reg rs2) (s.engine.reg rs3)))
      false false 0) :=
  execMontmul_ok rd rs1 rs2 rs3 s hodd ha hb

theorem exec_barrett_eq_afterOk (h : s.engine.reg rs3 ≠ 0) :
    exec (.barrett rd rs1 rs2 rs3) s = .next (s.afterOk
      (s.engine.setReg rd ((s.engine.reg rs1 * s.cfg.radix + s.engine.reg rs2) % s.engine.reg rs3)) false false 0) :=
  execBarrett_ok rd rs1 rs2 rs3 s h

theorem exec_fermat_eq_afterOk (h : s.engine.reg rs1 ≠ 0) :
    exec (.fermat rd rs1) s = .next (s.afterOk
      (s.engine.setReg rd (fermatScan (s.engine.reg rs1) probes 0).2)
      ((fermatScan (s.engine.reg rs1) probes 0).1 == probes.length) false
      (Fin.ofNat 16 (fermatScan (s.engine.reg rs1) probes 0).1)) :=
  execFermat_ok rd rs1 s h

end commands

/-! ### The Montgomery product (R107, R108) -/

section montProduct
variable (c : Config) (a b m : Nat)

theorem radix_coprime_of_odd (hodd : m % 2 = 1) : Nat.Coprime c.radix m :=
  Nat.Coprime.pow_left c.opw (Nat.coprime_two_left.mpr (Nat.odd_iff.mpr hodd))

theorem montProduct_lt (hm : 0 < m) : montProduct c a b m < m := by
  unfold montProduct
  split
  · exact hm
  · exact Nat.mod_lt _ hm

/-- The Montgomery product divides a*b by the radix, modulo m. -/
theorem radix_mul_montProduct (hodd : m % 2 = 1) : c.radix * montProduct c a b m ≡ a * b [MOD m] := by
  unfold montProduct
  split
  next hone => rw [hone]; exact Nat.modEq_one
  next hone =>
    have hinv : c.radix % m * inv (c.radix % m) m ≡ 1 [MOD m] := by
      have hgcd : Nat.gcd (c.radix % m) m = 1 := by
        rw [← Nat.gcd_rec, Nat.gcd_comm]
        exact radix_coprime_of_odd c m hodd
      exact (mul_inv_mod (c.radix % m) m (by omega) hgcd).trans (Nat.mod_eq_of_lt (by omega)).symm
    calc c.radix * (a * b * inv (c.radix % m) m % m)
        ≡ c.radix % m * (a * b * inv (c.radix % m) m) [MOD m] := (Nat.mod_modEq _ m).symm.mul (Nat.mod_modEq _ m)
      _ = a * b * (c.radix % m * inv (c.radix % m) m) := by ring
      _ ≡ a * b * 1 [MOD m] := hinv.mul_left (a * b)
      _ = a * b := mul_one _

/-- R110: the second product, with radix^2, takes the first one's division by the radix back. -/
theorem montProduct_radix_sq (hodd : m % 2 = 1) :
    montProduct c (montProduct c a b m) (2 ^ (2 * c.opw) % m) m = a * b % m := by
  have hsq : 2 ^ (2 * c.opw) = c.radix * c.radix := by rw [Config.radix, ← pow_add, two_mul]
  have hmul : c.radix * montProduct c (montProduct c a b m) (2 ^ (2 * c.opw) % m) m ≡ c.radix * (a * b) [MOD m] :=
    calc c.radix * montProduct c (montProduct c a b m) (2 ^ (2 * c.opw) % m) m
        ≡ montProduct c a b m * (2 ^ (2 * c.opw) % m) [MOD m] := radix_mul_montProduct c _ _ m hodd
      _ ≡ montProduct c a b m * 2 ^ (2 * c.opw) [MOD m] := (Nat.mod_modEq _ m).mul_left _
      _ = c.radix * (c.radix * montProduct c a b m) := by rw [hsq]; ring
      _ ≡ c.radix * (a * b) [MOD m] := (radix_mul_montProduct c a b m hodd).mul_left c.radix
  have hprod : montProduct c (montProduct c a b m) (2 ^ (2 * c.opw) % m) m ≡ a * b [MOD m] :=
    Nat.ModEq.cancel_left_of_coprime (radix_coprime_of_odd c m hodd).symm hmul
  exact (Nat.mod_eq_of_lt (montProduct_lt c _ _ m (by omega))).symm.trans hprod

end montProduct

/-! ### The obligations -/

/-- Settles O14: the second MONTMUL undoes the first one's division by the radix, as `montProduct_radix_sq` says of the values,
and squaring what BARRETT leaves of the radix gives the constant. -/
theorem twoMontmulsMultiply : Obligations.TwoMontmulsMultiply := by
  refine ⟨fun s t d ra rb rk rm htk htm hodd ha hb hk => ?_, fun s d rhi rlo re rm hde hdm hhi hlo he hm => ?_⟩
  · have hpos : 0 < s.engine.reg rm := by omega
    have hk_lt : s.engine.reg rk < s.engine.reg rm := hk.trans_lt (Nat.mod_lt _ hpos)
    refine ⟨_, _, exec_montmul_eq_afterOk t ra rb rm s hodd ha hb, exec_montmul_eq_afterOk d t rk rm _ ?_ ?_ ?_,
      rfl, ?_⟩
    all_goals simp only [State.afterOk_cfg, State.afterOk_reg, Engine.reg_setReg_same,
      Engine.reg_setReg_other _ _ _ _ htk.symm, Engine.reg_setReg_other _ _ _ _ htm.symm]
    · exact hodd
    · exact montProduct_lt s.cfg _ _ _ hpos
    · exact hk_lt
    · rw [hk]
      exact montProduct_radix_sq s.cfg _ _ _ hodd
  · refine ⟨_, _, exec_barrett_eq_afterOk d rhi rlo rm s hm, ?_, exec_modexp_eq_afterOk d d re rm _ ?_, ?_⟩
    all_goals simp only [State.afterOk_reg, Engine.reg_setReg_same, Engine.reg_setReg_other _ _ _ _ hde.symm,
      Engine.reg_setReg_other _ _ _ _ hdm.symm, hhi, hlo, he, one_mul, add_zero]
    · rfl
    · exact hm
    · rw [← Nat.pow_mod, Config.radix, ← pow_mul, mul_comm]

/-- Settles O37: what either command writes is a function of its operands' values. -/
theorem modexpAndFermatSeeOnlyTheirOperands : Obligations.ModexpAndFermatSeeOnlyTheirOperands := by
  intro s s' rd rs1 rs2 rs3 rd' rs1' rs2' rs3' h1
  refine ⟨fun h2 h3 hm => ?_, fun hn => ?_⟩
  · refine ⟨_, _, exec_modexp_eq_afterOk rd rs1 rs2 rs3 s hm,
      exec_modexp_eq_afterOk rd' rs1' rs2' rs3' s' (h3 ▸ hm), ?_, rfl⟩
    simp [h1, h2, h3]
  · refine ⟨_, _, exec_fermat_eq_afterOk rd rs1 s hn, exec_fermat_eq_afterOk rd' rs1' s' (h1 ▸ hn), ?_, rfl, ?_, ?_⟩ <;>
      simp [h1]

end Sys2Proof.Machine
end

section
/-! PROOFS, family fermat: the candidates whose verdict the bank fixes: 1, the even numbers, the probes, and the primes outside the
bank (R136 to R138). -/

namespace Sys2Proof.Machine

/-! ### The two ways FERMAT ends without error (R133), as states -/

section verdicts
variable {s : State} {rd rs1 : RegIdx}

theorem exec_fermat_of_first_failure (hn : s.engine.reg rs1 ≠ 0) (before after : List Nat) (p : Nat)
    (hbank : probes = before ++ p :: after)
    (hpass : ∀ q ∈ before, q ^ (s.engine.reg rs1 - 1) % s.engine.reg rs1 = 1)
    (hfail : p ^ (s.engine.reg rs1 - 1) % s.engine.reg rs1 ≠ 1) :
    exec (.fermat rd rs1) s = .next (s.afterOk
      (s.engine.setReg rd (p ^ (s.engine.reg rs1 - 1) % s.engine.reg rs1)) false false (Fin.ofNat 16 before.length)) := by
  have hscan : fermatScan (s.engine.reg rs1) probes 0 =
      (before.length, p ^ (s.engine.reg rs1 - 1) % s.engine.reg rs1) := by
    rw [hbank, fermatScan_append _ 0 _ _ hpass, fermatScan_cons, if_neg hfail, Nat.zero_add]
  have hshort : (before.length == probes.length) = false := by simp [hbank]
  rw [exec_fermat_eq_afterOk rd rs1 s hn, hscan, hshort]

theorem exec_fermat_of_all_pass (hn : s.engine.reg rs1 ≠ 0)
    (hpass : ∀ q ∈ probes, q ^ (s.engine.reg rs1 - 1) % s.engine.reg rs1 = 1) :
    exec (.fermat rd rs1) s = .next (s.afterOk (s.engine.setReg rd 1) true false 9) := by
  have hscan : fermatScan (s.engine.reg rs1) probes 0 = (probes.length, 1) := by
    simpa [fermatScan] using fermatScan_append (s.engine.reg rs1) 0 probes [] hpass
  rw [exec_fermat_eq_afterOk rd rs1 s hn, hscan]
  rfl

end verdicts

/-! ### The residues -/

theorem prime_of_mem_probes {q : Nat} (hq : q ∈ probes) : q.Prime := by
  simp only [probes, List.mem_cons, List.not_mem_nil, or_false] at hq
  rcases hq with rfl | rfl | rfl | rfl | rfl | rfl | rfl | rfl | rfl <;> norm_num

/-- Fermat's little theorem at a probe: a prime passes every probe but itself. -/
theorem probe_pow_mod_prime {n q : Nat} (hn : n.Prime) (hq : q ∈ probes) (hne : q ≠ n) : q ^ (n - 1) % n = 1 := by
  have hcoprime : q.Coprime n := (Nat.coprime_primes (prime_of_mem_probes hq) hn).mpr hne
  have hfermat : q ^ (n - 1) ≡ 1 [MOD n] := Nat.totient_prime hn ▸ Nat.ModEq.pow_totient hcoprime
  exact Eq.trans hfermat (Nat.mod_eq_of_lt hn.one_lt)

/-- Reducing an even power modulo an even number keeps it even. -/
theorem even_two_pow_mod {n : Nat} (hn : 2 ≤ n) (heven : n % 2 = 0) : 2 ^ (n - 1) % n % 2 = 0 := by
  rw [Nat.mod_mod_of_dvd _ (Nat.dvd_of_mod_eq_zero heven)]
  exact Nat.mod_eq_zero_of_dvd (dvd_pow_self 2 (by omega))

/-! ### The obligations -/

/-- Settles O21: an even residue is not 1, so probe 0 decides; a prime outside the bank differs from every probe. -/
theorem fermatOnEvensAndPrimes : Obligations.FermatOnEvensAndPrimes := by
  refine fun s rd rs1 => ⟨fun hn heven => ?_, fun hprime hout => ?_⟩
  · have hres := even_two_pow_mod hn heven
    exact ⟨_, hres, fun h => by rw [h]; rfl, rfl,
      exec_fermat_of_first_failure (by omega) [] _ 2 rfl (by simp) (by omega)⟩
  · exact exec_fermat_of_all_pass hprime.ne_zero
      fun q hq => probe_pow_mod_prime hprime hq (ne_of_mem_of_not_mem hq hout)

/-- Settles O19: probe 0 decides, as every residue modulo 1 is 0. -/
theorem fermatOneIsComposite : Obligations.FermatOneIsComposite := by
  intro s rd rs1 hone
  have hres : 2 ^ (s.engine.reg rs1 - 1) % s.engine.reg rs1 = 0 := by rw [hone, Nat.mod_one]
  refine ⟨rfl, ?_⟩
  rw [exec_fermat_of_first_failure (by omega) [] _ 2 rfl (by simp) (by omega), hres]
  rfl

/-- Settles O20: the bank cut at probe k: the probes before it are other primes, which pass, and n divides its own power. -/
theorem fermatProbeIsComposite : Obligations.FermatProbeIsComposite := by
  intro s rd rs1 k hk
  change s.engine.reg rs1 = probes[k] at hk
  have hprime : (s.engine.reg rs1).Prime := prime_of_mem_probes (hk ▸ List.getElem_mem k.isLt)
  have hpass (j : Fin 9) (hj : j < k) : probes[j] ^ (s.engine.reg rs1 - 1) % s.engine.reg rs1 = 1 := by
    refine probe_pow_mod_prime hprime (List.getElem_mem j.isLt) fun heq => hj.ne ?_
    exact Fin.ext ((show probes.Nodup by decide).getElem_inj_iff.mp (heq.trans hk))
  have hzero : s.engine.reg rs1 ^ (s.engine.reg rs1 - 1) % s.engine.reg rs1 = 0 :=
    Nat.mod_eq_zero_of_dvd (dvd_pow_self _ (Nat.sub_ne_zero_of_lt hprime.one_lt))
  refine ⟨hpass, hzero, ?_⟩
  have hbank : probes = probes.take k ++ s.engine.reg rs1 :: probes.drop (k + 1) := by
    rw [hk]
    exact (probes.take_append_drop k).symm.trans (congrArg _ (List.drop_eq_getElem_cons k.isLt))
  have hlen : (probes.take k).length = k := List.length_take_of_le k.isLt.le
  rw [exec_fermat_of_first_failure hprime.ne_zero _ _ _ hbank ?_ (by omega), hzero, hlen]
  · rfl
  · intro q hq
    obtain ⟨j, hj, rfl⟩ := List.mem_take_iff_getElem.mp hq
    have hjk : j < k := hj.trans_le (Nat.min_le_left _ _)
    exact hpass ⟨j, hjk.trans k.isLt⟩ hjk

end Sys2Proof.Machine
end

section
/-! PROOFS, family euclid: the recursion and its loop (R151), Bézout's identity with the bounds (R152), the modular inverse (R156). -/

namespace Sys2Proof.Machine

/-! ### The recursion and the loop (R151) -/

/-- The recursion of R151 has one solution, as b falls to `a mod b` in every call. -/
theorem SolvesR151.eq_EG {F : Nat → Nat → Nat × Int × Int} (hF : SolvesR151 F) (a b : Nat) : F a b = EG a b := by
  obtain ⟨hzero, hpos⟩ := hF
  induction b using Nat.strong_induction_on generalizing a with
  | _ b ih =>
    rcases Nat.eq_zero_or_pos b with rfl | hb
    · rw [hzero, EG_zero]
    · rw [hpos a b hb, EG_pos a b hb, ih (a % b) (Nat.mod_lt a hb) b]

/-- The loop combines the two rows it is given, with the recursion's coefficients of `(r0, r1)` as weights. -/
theorem egLoopFuel_eq (fuel r0 r1 : Nat) (s0 s1 t0 t1 : Int) :
    egLoopFuel fuel r0 r1 s0 s1 t0 t1 =
      ((egFuel fuel r0 r1).1,
        (egFuel fuel r0 r1).2.1 * s0 + (egFuel fuel r0 r1).2.2 * s1,
        (egFuel fuel r0 r1).2.1 * t0 + (egFuel fuel r0 r1).2.2 * t1) := by
  induction fuel generalizing r0 r1 s0 s1 t0 t1 with
  | zero => simp [egLoopFuel, egFuel]
  | succ fuel ih =>
    rcases Nat.eq_zero_or_pos r1 with rfl | hr
    · simp [egLoopFuel, egFuel]
    · have hmod : r0 - r0 / r1 * r1 = r0 % r1 := by rw [Nat.mod_eq_sub_div_mul]
      rw [egLoopFuel, if_neg hr.ne']
      simp only [hmod, ih, egFuel_succ _ _ _ hr, Prod.mk.injEq, true_and]
      constructor <;> ring

/-- From the rows (1, 0) and (0, 1) the combination is the pair of coefficients itself. -/
theorem egLoop_eq_EG (a b : Nat) : egLoop a b = EG a b := by
  simp [egLoop, egLoopFuel_eq, EG]

/-! ### The bounds of the coefficients (R152) -/

/-- `abs(x) <= max(1, b)` and `abs(y) <= max(1, a)`. In the recursion y takes at most `(a mod b) + (a / b) * b = a`; where the
remainder is 0 the call below is a base case and y is 1. -/
theorem EG_natAbs_le (a b : Nat) : (EG a b).2.1.natAbs ≤ max 1 b ∧ (EG a b).2.2.natAbs ≤ max 1 a := by
  induction b using Nat.strong_induction_on generalizing a with
  | _ b ih =>
    rcases Nat.eq_zero_or_pos b with rfl | hb
    · simp
    rw [EG_pos a b hb]
    rcases Nat.eq_zero_or_pos (a % b) with hr | hr
    · simp [hr]
    obtain ⟨hx, hy⟩ := ih (a % b) (Nat.mod_lt a hb) b
    rw [Nat.max_eq_right hr] at hx
    rw [Nat.max_eq_right hb] at hy
    refine ⟨hy.trans (Nat.le_max_right 1 b), le_trans ?_ (Nat.le_max_right 1 a)⟩
    calc ((EG b (a % b)).2.1 - ((a / b : Nat) : Int) * (EG b (a % b)).2.2).natAbs
        ≤ (EG b (a % b)).2.1.natAbs + (((a / b : Nat) : Int) * (EG b (a % b)).2.2).natAbs := Int.natAbs_sub_le _ _
      _ = (EG b (a % b)).2.1.natAbs + a / b * (EG b (a % b)).2.2.natAbs := by rw [Int.natAbs_mul, Int.natAbs_natCast]
      _ ≤ a % b + a / b * b := Nat.add_le_add hx (Nat.mul_le_mul_left _ hy)
      _ = a := Nat.mod_add_div' a b

theorem gcd_lt_of_lt {a b n : Nat} (ha : a < n) (hb : b < n) : Nat.gcd a b < n := by
  rcases Nat.eq_zero_or_pos b with rfl | hpos
  · rwa [Nat.gcd_zero_right]
  · exact (Nat.gcd_le_right a hpos).trans_lt hb

/-! ### The engine that holds the triple (R24) -/

/-- G, CX, CY and the signs hold `EG(a, b)`, the magnitudes exactly. -/
structure Engine.HoldsEG (e : Engine) (a b : Nat) : Prop where
  gcd : e.G = Nat.gcd a b
  coeffX : e.coeffX = (EG a b).2.1
  coeffY : e.coeffY = (EG a b).2.2
  magnitudeX : e.CX = e.coeffX.natAbs
  magnitudeY : e.CY = e.coeffY.natAbs

section holdsEG
variable {e : Engine} {a b : Nat}

theorem Engine.holdsEG_of_fields (hG : e.G = (EG a b).1) (hx : e.CX = (EG a b).2.1.natAbs)
    (hxn : e.XNEG = decide ((EG a b).2.1 < 0)) (hy : e.CY = (EG a b).2.2.natAbs)
    (hyn : e.YNEG = decide ((EG a b).2.2 < 0)) : e.HoldsEG a b := by
  obtain ⟨hcx, hcy, -, -⟩ := signs_of_magnitudes e _ _ hx hxn hy hyn
  exact ⟨hG.trans (EG_gcd a b), hcx, hcy, by rw [hx, hcx], by rw [hy, hcy]⟩

theorem Engine.HoldsEG.bezout (h : e.HoldsEG a b) : (a : Int) * e.coeffX + b * e.coeffY = e.G := by
  rw [h.coeffX, h.coeffY, h.gcd, EG_bezout, EG_gcd]

theorem Engine.HoldsEG.coeffX_natAbs_le (h : e.HoldsEG a b) : e.coeffX.natAbs ≤ max 1 b := by
  rw [h.coeffX]
  exact (EG_natAbs_le a b).1

theorem Engine.HoldsEG.coeffY_natAbs_le (h : e.HoldsEG a b) : e.coeffY.natAbs ≤ max 1 a := by
  rw [h.coeffY]
  exact (EG_natAbs_le a b).2

/-- No overflow: what bounds the operands bounds the results. -/
theorem Engine.HoldsEG.lt {n : Nat} (h : e.HoldsEG a b) (hn : 1 < n) (ha : a < n) (hb : b < n) :
    e.G < n ∧ e.CX < n ∧ e.CY < n := by
  rw [h.gcd, h.magnitudeX, h.magnitudeY]
  exact ⟨gcd_lt_of_lt ha hb, h.coeffX_natAbs_le.trans_lt (max_lt hn hb), h.coeffY_natAbs_le.trans_lt (max_lt hn ha)⟩

end holdsEG

/-! ### EGCD and MODINV, as states (R153, R157) -/

section commands
variable (rd rs1 rs2 : RegIdx) (s : State)

theorem exec_egcd_eq_afterOk :
    exec (.egcd rs1 rs2) s = .next (s.afterOk
      (s.engine.setTriple (EG (s.engine.reg rs1) (s.engine.reg rs2)).1 (EG (s.engine.reg rs1) (s.engine.reg rs2)).2.1
        (EG (s.engine.reg rs1) (s.engine.reg rs2)).2.2) false false 0) := rfl

theorem exec_modinv_eq_afterError (ha : s.engine.reg rs1 = 1) (hb : s.engine.reg rs2 = 0) :
    exec (.modinv rd rs1 rs2) s = .next (s.afterError 2) := by
  simp [exec, execModinv, ha, hb, raiseError_eq, ErrCode.code]

/-- Without DIV0, MODINV writes the inverse where there is one, and the zero sentinel with NOINV where there is none. -/
theorem exec_modinv_eq_afterOk (h : ¬(s.engine.reg rs1 = 1 ∧ s.engine.reg rs2 = 0)) :
    exec (.modinv rd rs1 rs2) s = .next (s.afterOk
      ((s.engine.setTriple (EG (s.engine.reg rs1) (s.engine.reg rs2)).1 (EG (s.engine.reg rs1) (s.engine.reg rs2)).2.1
        (EG (s.engine.reg rs1) (s.engine.reg rs2)).2.2).setReg rd
          (if Nat.gcd (s.engine.reg rs1) (s.engine.reg rs2) = 1 then inv (s.engine.reg rs1) (s.engine.reg rs2) else 0))
      false (decide (Nat.gcd (s.engine.reg rs1) (s.engine.reg rs2) ≠ 1)) 0) := by
  have hdiv : ¬(Nat.gcd (s.engine.reg rs1) (s.engine.reg rs2) = 1 ∧ s.engine.reg rs2 = 0) := by
    rintro ⟨hg, hb⟩
    rw [hb, Nat.gcd_zero_right] at hg
    exact h ⟨hg, hb⟩
  simp only [exec, execModinv, finish_eq, EG_gcd, if_neg hdiv]
  by_cases hg : Nat.gcd (s.engine.reg rs1) (s.engine.reg rs2) = 1
  · simp [hg, inv]
  · simp [hg]

end commands

/-! ### The obligations -/

/-- Settles O22: the recursion determines its solution, and the loop is the recursion with weighted rows. -/
theorem euclidLoopIsRecursion : Obligations.EuclidLoopIsRecursion :=
  ⟨solvesR151_EG, fun _ hF => hF.eq_EG, egLoop_eq_EG⟩

/-- Settles O25: either command leaves an engine that holds the triple of EG, whose bounds are those of `EG_natAbs_le`. -/
theorem bezoutIdentityAndBounds : Obligations.BezoutIdentityAndBounds := by
  intro s rd rs1 rs2 a b good
  have good_of_holdsEG {e : Engine} (h : e.HoldsEG a b) : good e :=
    ⟨h.bezout, h.gcd, h.coeffX_natAbs_le, h.coeffY_natAbs_le,
      fun hopw => h.lt (Nat.one_lt_two_pow (by omega)), h.magnitudeX, h.magnitudeY⟩
  constructor
  · exact ⟨_, exec_egcd_eq_afterOk rs1 rs2 s, good_of_holdsEG (Engine.holdsEG_of_fields rfl rfl rfl rfl rfl)⟩
  · by_cases hdiv : a = 1 ∧ b = 0
    · exact ⟨_, exec_modinv_eq_afterError rd rs1 rs2 s hdiv.1 hdiv.2, fun h => absurd hdiv h⟩
    · exact ⟨_, exec_modinv_eq_afterOk rd rs1 rs2 s hdiv,
        fun _ => good_of_holdsEG (Engine.holdsEG_of_fields rfl rfl rfl rfl rfl)⟩

/-- Settles O26: MODINV writes `inv(a, b)`, and a coprime factor cancels modulo b. -/
theorem modinvWritesTheInverse : Obligations.ModinvWritesTheInverse := by
  intro s rd rs1 rs2 hgcd hb
  have hinv := mul_inv_mod (s.engine.reg rs1) (s.engine.reg rs2) hb hgcd
  have hlt := inv_lt (s.engine.reg rs1) (s.engine.reg rs2) (by omega)
  refine ⟨_, exec_modinv_eq_afterOk rd rs1 rs2 s (by omega), rfl, by simp [State.afterOk, hgcd], ?_⟩
  simp only [State.afterOk_reg, Engine.reg_setReg_same, if_pos hgcd]
  refine ⟨hlt, hinv, fun u hu hmul => ?_⟩
  have hcancel : u ≡ inv (s.engine.reg rs1) (s.engine.reg rs2) [MOD s.engine.reg rs2] :=
    Nat.ModEq.cancel_left_of_coprime (Nat.gcd_comm _ _ ▸ hgcd) (hmul.trans hinv.symm)
  exact hcancel.eq_of_lt_of_lt hu hlt

end Sys2Proof.Machine
end

section
/-! PROOFS, family exceptions: where each error is raised (R171 to R174), which wins (R175), and that errors are precise (R176). -/

namespace Sys2Proof.Machine

/-! ### The completion of a command, and of a word that is none (R90, R220) -/

theorem completeCommand_of_decode_ok {s : State} {i : Instr} (hd : decode s.engine.CMDL = .ok i) :
    completeCommand s = exec i s := by
  rw [completeCommand, hd]

theorem completeCommand_of_decode_error {s : State} {r : DecodeReject} (hd : decode s.engine.CMDL = .error r) :
    completeCommand s = .next (s.afterError 1) := by
  rw [completeCommand, hd]
  rfl

/-! ### The error of a command -/

@[simp] theorem State.afterError_ERR (s : State) (code : Fin 16) : (s.afterError code).engine.ERR = code := rfl

theorem ErrCode.code_injective : Function.Injective ErrCode.code := by
  intro c d h
  cases c <;> cases d <;> simp [ErrCode.code] at h ⊢

theorem ErrCode.code_le (c : ErrCode) : c.code.val ≤ 4 := by cases c <;> decide

/-- The error a command ends with on the engine's operands, each cause in the order in which it wins (R175). -/
def errorOf (e : Engine) : Instr → Option ErrCode
  | .modexp _ _ _ m | .barrett _ _ _ m => if e.reg m = 0 then some .div0 else none
  | .montmul _ a b m =>
    if e.reg m = 0 then some .div0
    else if e.reg m % 2 = 0 then some .even
    else if e.reg m ≤ e.reg a ∨ e.reg m ≤ e.reg b then some .range
    else none
  | .fermat _ n => if e.reg n = 0 then some .range else none
  | .egcd _ _ => none
  | .modinv _ a b => if e.reg a = 1 ∧ e.reg b = 0 then some .div0 else none

section exec
variable {i : Instr} {s t : State} {c : ErrCode}

/-- A cause of an error ends the command with its code and nothing else written (R176). -/
theorem exec_eq_afterError (h : errorOf s.engine i = some c) : exec i s = .next (s.afterError c.code) := by
  cases i with simp only [errorOf] at h
  | modexp rd a e m =>
    split_ifs at h with hm
    cases h
    exact execModexp_div0 rd a e m s hm
  | montmul rd a b m =>
    simp only [exec, execMontmul]
    split_ifs at h ⊢ <;> cases h <;> rfl
  | barrett rd hi lo m =>
    split_ifs at h with hm
    cases h
    exact if_pos hm
  | fermat rd n =>
    split_ifs at h with hn
    cases h
    exact if_pos hn
  | egcd a b => cases h
  | modinv rd a b =>
    split_ifs at h with hab
    cases h
    exact exec_modinv_eq_afterError rd a b s hab.1 hab.2

/-- With no cause of an error the command ends without one (R43). -/
theorem exec_eq_afterOk (h : errorOf s.engine i = none) : ∃ e p n idx, exec i s = .next (s.afterOk e p n idx) := by
  cases i with simp only [errorOf] at h
  | modexp rd a e m =>
    split_ifs at h with hm
    exact ⟨_, _, _, _, exec_modexp_eq_afterOk rd a e m s hm⟩
  | montmul rd a b m =>
    split_ifs at h with hzero heven hrange
    exact ⟨_, _, _, _, exec_montmul_eq_afterOk rd a b m s (by omega) (by omega) (by omega)⟩
  | barrett rd hi lo m =>
    split_ifs at h with hm
    exact ⟨_, _, _, _, exec_barrett_eq_afterOk rd hi lo m s hm⟩
  | fermat rd n =>
    split_ifs at h with hn
    exact ⟨_, _, _, _, exec_fermat_eq_afterOk rd n s hn⟩
  | egcd a b => exact ⟨_, _, _, _, exec_egcd_eq_afterOk a b s⟩
  | modinv rd a b =>
    split_ifs at h with hab
    exact ⟨_, _, _, _, exec_modinv_eq_afterOk rd a b s hab⟩

/-- The code after a command is that of its error, and 0 when it has none (R40). -/
theorem exec_ERR (ht : exec i s = .next t) : t.engine.ERR = (errorOf s.engine i).elim 0 ErrCode.code := by
  cases he : errorOf s.engine i with
  | none =>
    obtain ⟨e, p, n, idx, hok⟩ := exec_eq_afterOk he
    cases hok.symm.trans ht
    rfl
  | some c =>
    cases (exec_eq_afterError he).symm.trans ht
    rfl

theorem exec_ERR_eq_code_iff (ht : exec i s = .next t) : t.engine.ERR = c.code ↔ errorOf s.engine i = some c := by
  rw [exec_ERR ht]
  cases errorOf s.engine i with
  | none => simp [c.code_ne_zero.symm]
  | some d => simp [ErrCode.code_injective.eq_iff]

theorem exec_ERR_le (ht : exec i s = .next t) : t.engine.ERR.val ≤ 4 := by
  rw [exec_ERR ht]
  cases errorOf s.engine i with
  | none => exact Nat.zero_le 4
  | some c => exact c.code_le

end exec

/-! ### The causes of each code -/

/-- MODINV's cause of DIV0 in R172's two spellings: only 1 has gcd 1 with 0. -/
theorem gcd_eq_one_and_eq_zero_iff (a b : Nat) : Nat.gcd a b = 1 ∧ b = 0 ↔ a = 1 ∧ b = 0 :=
  and_congr_left fun hb => by rw [hb, Nat.gcd_zero_right]

section causes
variable (e : Engine) (i : Instr) (rd rs1 rs2 rs3 : RegIdx)

/-! MONTMUL alone has causes that can apply together (R175). -/

theorem errorOf_montmul_eq_div0_iff : errorOf e (.montmul rd rs1 rs2 rs3) = some .div0 ↔ e.reg rs3 = 0 := by
  simp only [errorOf]
  split_ifs <;> simp [*]

theorem errorOf_montmul_eq_even_iff :
    errorOf e (.montmul rd rs1 rs2 rs3) = some .even ↔ e.reg rs3 ≠ 0 ∧ e.reg rs3 % 2 = 0 := by
  simp only [errorOf]
  split_ifs <;> simp [*]

theorem errorOf_montmul_eq_range_iff : errorOf e (.montmul rd rs1 rs2 rs3) = some .range ↔
    e.reg rs3 % 2 = 1 ∧ (e.reg rs3 ≤ e.reg rs1 ∨ e.reg rs3 ≤ e.reg rs2) := by
  simp only [errorOf]
  split_ifs with hzero heven hrange
  · simp [hzero]
  · simp [heven]
  · have hodd : e.reg rs3 % 2 = 1 := by omega
    simp [hodd, hrange]
  · simp [hrange]

/-- ILLEGAL is an undecodable word's, never a command's (R171). -/
theorem errorOf_ne_illegal : errorOf e i ≠ some .illegal := by
  cases i with
  | montmul rd a b m =>
    simp only [errorOf]
    split_ifs <;> simp
  | modexp | barrett | fermat | egcd | modinv => simp [errorOf]

theorem errorOf_eq_div0_iff : errorOf e i = some .div0 ↔
    (∃ rd rs1 rs2 rs3, (i = .modexp rd rs1 rs2 rs3 ∨ i = .montmul rd rs1 rs2 rs3 ∨ i = .barrett rd rs1 rs2 rs3) ∧
      e.reg rs3 = 0) ∨
    ∃ rd rs1 rs2, i = .modinv rd rs1 rs2 ∧ Nat.gcd (e.reg rs1) (e.reg rs2) = 1 ∧ e.reg rs2 = 0 := by
  cases i with
  | montmul rd a b m => simp [errorOf_montmul_eq_div0_iff]
  | modexp | barrett | fermat | egcd | modinv => simp [errorOf, gcd_eq_one_and_eq_zero_iff]

theorem errorOf_eq_even_iff : errorOf e i = some .even ↔
    ∃ rd rs1 rs2 rs3, i = .montmul rd rs1 rs2 rs3 ∧ e.reg rs3 ≠ 0 ∧ e.reg rs3 % 2 = 0 := by
  cases i with
  | montmul rd a b m => simp [errorOf_montmul_eq_even_iff]
  | modexp | barrett | fermat | egcd | modinv => simp [errorOf]

theorem errorOf_eq_range_iff : errorOf e i = some .range ↔
    (∃ rd rs1 rs2 rs3, i = .montmul rd rs1 rs2 rs3 ∧ e.reg rs3 % 2 = 1 ∧
      (e.reg rs3 ≤ e.reg rs1 ∨ e.reg rs3 ≤ e.reg rs2)) ∨
    ∃ rd rs1, i = .fermat rd rs1 ∧ e.reg rs1 = 0 := by
  cases i with
  | montmul rd a b m => simp [errorOf_montmul_eq_range_iff]
  | modexp | barrett | fermat | egcd | modinv => simp [errorOf]

end causes

/-! ### The obligations -/

/-- Settles O7: at the engine's turn a running command completes, and a word that is no command completes with ILLEGAL. -/
theorem illegalWordCompletesWithIllegal : Obligations.IllegalWordCompletesWithIllegal := by
  intro s rest r hnext hbusy hd
  rw [step_complete s rest hnext hbusy]
  exact completeCommand_of_decode_error (s := { s with inbox := rest }) hd

/-- Settles O28: the commands' DIV0 is that of `errorOf`, and only 1 has gcd 1 with 0. -/
theorem divZeroCases : Obligations.DivZeroCases := by
  refine ⟨fun s rd rs1 rs2 rs3 hm => ⟨?_, ?_, ?_⟩, fun s rd rs1 rs2 => ⟨?_, ?_, fun t ht => ?_⟩⟩
  · exact exec_eq_afterError (c := .div0) (if_pos hm)
  · exact exec_eq_afterError (c := .div0) (if_pos hm)
  · exact exec_eq_afterError (c := .div0) (if_pos hm)
  · exact fun hab => exec_eq_afterError (c := .div0) (if_pos hab)
  · rw [EG_gcd]
    exact gcd_eq_one_and_eq_zero_iff _ _
  · exact (exec_ERR_eq_code_iff (c := .div0) ht).trans (by simp [errorOf])

/-- Settles O29: MONTMUL's EVEN and RANGE and FERMAT's RANGE are those of `errorOf`. -/
theorem evenAndRangeCases : Obligations.EvenAndRangeCases := by
  refine ⟨fun s rd rs1 rs2 rs3 hzero heven => ?_, fun s rd rs1 rs2 rs3 hodd hrange => ?_, fun s rd rs1 hn => ?_⟩
  · exact exec_eq_afterError ((errorOf_montmul_eq_even_iff ..).mpr ⟨hzero, heven⟩)
  · exact exec_eq_afterError ((errorOf_montmul_eq_range_iff ..).mpr ⟨hodd, hrange⟩)
  · exact exec_eq_afterError (c := .range) (if_pos hn)

/-- Settles O30: the code of a word that is no command is 1, and that of a command is the code of its `errorOf`. -/
theorem errorCodes : Obligations.ErrorCodes := by
  intro s t ht
  cases hd : decode s.engine.CMDL with
  | error r =>
    cases (completeCommand_of_decode_error hd).symm.trans ht
    simp
  | ok i =>
    rw [completeCommand_of_decode_ok hd] at ht
    have hcode (c : ErrCode) := exec_ERR_eq_code_iff (c := c) ht
    simp only [Except.ok.injEq]
    refine ⟨?_, ?_, ?_, ?_, exec_ERR_le ht⟩
    · exact (hcode .illegal).trans (by simp [errorOf_ne_illegal])
    · exact (hcode .div0).trans (errorOf_eq_div0_iff s.engine i)
    · exact (hcode .even).trans (errorOf_eq_even_iff s.engine i)
    · exact (hcode .range).trans (errorOf_eq_range_iff s.engine i)

/-- Settles O31, by the ways a command can end: one that ends with results has code 0. -/
theorem errorsArePrecise : Obligations.ErrorsArePrecise := by
  intro s t ht herr
  cases completed_of_completeCommand ht with
  | error c => rfl
  | modArith | fermat | egcd | modinv => exact absurd rfl herr

end Sys2Proof.Machine
end

section
/-! PROOFS, family reset and hazards: what the host reads and writes while a command runs (R211, R212), and the commands on
the reset values (R203). -/

namespace Sys2Proof.Machine

/-! ### Accesses while busy -/

/-- A limb offset names a limb, of an operand or of a result register. -/
theorem isLimb_slotAt_of_limbOffset (c : Config) (off : Nat) (hl : LimbOffset c off) : (slotAt c off).isLimb = true := by
  rcases Nat.lt_or_ge off 0x1800 with h18 | h18
  · rw [slotAt_of_operand_offset c off hl h18, Slot.isLimb]
  · rw [slotAt_of_result_offset c off hl h18, Slot.isLimb]

/-- Settles O44: an offset names a limb exactly when it is a limb offset, and only a limb reads as a draw. -/
theorem busyReadsAreDraws : Obligations.BusyReadsAreDraws := by
  intro s rest off hb hoff hal h
  constructor
  · exact fun hl => step_r32_draw s rest off hoff hal h hb (isLimb_slotAt_of_limbOffset s.cfg off hl)
  · exact fun hl => ⟨_, step_r32_exact s rest off hoff hal h (.inr (isLimb_slotAt_eq_false s.cfg off hal hl)), rfl⟩

/-- Settles O45: a busy engine drops a write to CMD or to an operand limb, and takes every other write as an idle one does. -/
theorem busyWritesAreDropped : Obligations.BusyWritesAreDropped := by
  intro s rest off w hb hoff hal h
  rw [step_w32 s rest off hoff hal w h]
  rcases slotAt_cases s.cfg off hal with ⟨rfl, _⟩ | ⟨rfl, _⟩ | ⟨rfl, _⟩ | ⟨rfl, hslot⟩ | ⟨hl, h18, i, j, hslot⟩ |
    ⟨hl, h18, r, j, hslot⟩ | ⟨h16, hl, hslot⟩
  · simp [LimbOffset, writeSlot]
  · simp [LimbOffset, writeSlot, bitSet_eq_getLsbD]
  · simp [LimbOffset, writeSlot, Engine.acknowledge, bitSet_eq_getLsbD, and_not_eq_ite]
  · rw [hslot, writeSlot_busy_drops hb (.inl rfl), if_pos (.inl rfl), Engine.dropWrite]
  · rw [hslot, writeSlot_busy_drops hb (.inr ⟨i, j, rfl⟩), if_pos (.inr ⟨hl, h18⟩), Engine.dropWrite]
  · rw [hslot, writeSlot, if_neg (by omega), if_neg (by omega), if_neg (by omega)]
  · rw [hslot, writeSlot, if_neg (by omega), if_neg (by omega), if_neg (by omega)]

/-! ### The commands on the reset values -/

/-- Settles O51: a modulus 0 is DIV0, a candidate 0 is RANGE, and `EG(0, 0) = (0, 1, 0)` with no inverse. -/
theorem commandsOnResetValues : Obligations.CommandsOnResetValues := by
  refine ⟨fun _ => Engine.reset_reg _, fun s rd rs1 rs2 rs3 hzero => ⟨?_, ?_, ?_, ?_, ?_, ?_⟩⟩
  · exact exec_eq_afterError (c := .div0) (if_pos (hzero rs3))
  · exact exec_eq_afterError (c := .div0) (if_pos (hzero rs3))
  · exact exec_eq_afterError (c := .div0) (if_pos (hzero rs3))
  · exact exec_eq_afterError (c := .range) (if_pos (hzero rs1))
  · rw [exec_egcd_eq_afterOk, hzero, hzero, EG_zero]
    rfl
  · rw [exec_modinv_eq_afterOk rd rs1 rs2 s (by simp [hzero]), hzero, hzero, EG_zero]
    rfl

end Sys2Proof.Machine
end

section
/-! PROOFS, family other: the encoding both ways (R81, R86), the invariant and what can change each piece of state (R22, R23, R34),
the command lifecycle, WAIT and the end of a run (R70, R93, R220 to R223), LOAD (R93), the values of the six commands and the datapaths
that compute them (R102 to R114, R133, R151 to R160), and their frame. -/

namespace Sys2Proof

/-- A command is read back from its word: its fields are, and they are those of the command alone. -/
theorem decode_encode (i : Instr) : decode (encode i) = .ok i := by
  rw [decode, encode, fieldsOf_wordOf, decodeFields_eq_ok_iff]

/-- Settles O2, by `decode_encode`. -/
theorem decodeOfEncode : Obligations.DecodeOfEncode := fun i _ => decode_encode i

/-- Settles O3: a word that decodes has the fields of its command, and the fields are all of the word. -/
theorem legalWordHasOneSpelling : Obligations.LegalWordHasOneSpelling := by
  intro w i h
  have hfields : fieldsOf w = i.fields := (decodeFields_eq_ok_iff (fieldsOf w) i).mp h
  rw [encode, ← hfields, wordOf_fieldsOf]

/-- Settles O1: the legal words are the encodings of their commands, and each of the others fails its one check. -/
theorem sampleWordsDecode : Obligations.SampleWordsDecode :=
  ⟨decode_encode (.modexp 3 0 1 2), decode_encode (.modexp 7 7 7 7), decode_encode (.montmul 7 1 2 0),
    decode_encode (.barrett 3 4 5 0), decode_encode (.fermat 1 0), decode_encode (.egcd 2 3),
    decode_encode (.modinv 4 2 3), rfl, rfl, rfl⟩

end Sys2Proof

namespace Sys2Proof.Machine

/-! ### The offsets a slot spans (R53) -/

/-- The offsets of the window that name a slot, with the slots of the register windows that hold limbs. -/
def Slot.Spans (c : Config) (off : Nat) : Slot → Prop
  | .id => off < 0x004
  | .ctrl => 0x004 ≤ off ∧ off < 0x008
  | .status => 0x008 ≤ off ∧ off < 0x00C
  | .cmd => 0x00C ≤ off ∧ off < 0x010
  | .operand i j => operandOffset i 0 ≤ off ∧ off < operandOffset i c.nl ∧ j < c.nl
  | .result _ j => 0x1800 ≤ off ∧ off < 0x1B00 ∧ j < c.nl
  | .reserved => True

theorem slotAt_spans (c : Config) (off : Nat) : (slotAt c off).Spans c off := by
  unfold slotAt
  simp only
  split_ifs with h10 h1000 h1800 hj h1B00 hj'
  · have : off / 4 = 0 ∨ off / 4 = 1 ∨ off / 4 = 2 ∨ off / 4 = 3 := by omega
    rcases this with h | h | h | h <;> rw [h] <;> simp only [Slot.Spans] <;> omega
  · trivial
  · simp only [Slot.Spans, operandOffset, Fin.val_ofNat]
    omega
  · trivial
  · exact ⟨by omega, h1B00, hj'⟩
  · trivial
  · trivial

/-- A write to a slot that holds a limb writes a limb below NL (R54, R56). -/
theorem lt_nl_of_writes_operand {c : Config} {w : Word} {i : RegIdx} {j : Nat} {a : Arrival}
    (h : a.Writes c w (.operand i j)) : j < c.nl := by
  obtain ⟨off, -, -, hslot, -⟩ := h
  have hspans := slotAt_spans c off
  rw [hslot] at hspans
  exact hspans.2.2

/-! ### The parameters -/

/-- Settles O57, by what a step can have done. -/
theorem parametersNeverChange : Obligations.ParametersNeverChange := by
  intro s t h
  rcases step_cases s t h with ⟨_, _, _, rfl⟩ | ⟨rest, _, _, hc⟩ | ⟨a, rest, hi, _⟩ | ⟨_, _, rfl⟩ | ⟨polls, rest, _, rfl⟩
  · rfl
  · exact (completeCommand_frame _ t hc).1
  · exact (step_access s t a rest hi h).1
  · rfl
  · exact hostWait_cfg polls rest s

/-! ### What a command can answer -/

/-- The states a command can answer: after its error (R176), or after the results and flags of its rule (R43), where the operands
are those the rule is for. -/
inductive ExecResult (s : State) : Instr → State → Prop
  | error {i : Instr} {c : ErrCode} (he : errorOf s.engine i = some c) : ExecResult s i (s.afterError c.code)
  | modexp {rd a e m : RegIdx} (hm : s.engine.reg m ≠ 0) :
      ExecResult s (.modexp rd a e m) (s.afterOk
        (s.engine.setReg rd (s.engine.reg a ^ s.engine.reg e % s.engine.reg m)) false false 0)
  | montmul {rd a b m : RegIdx} (hodd : s.engine.reg m % 2 = 1) (ha : s.engine.reg a < s.engine.reg m)
      (hb : s.engine.reg b < s.engine.reg m) :
      ExecResult s (.montmul rd a b m) (s.afterOk
        (s.engine.setReg rd (montProduct s.cfg (s.engine.reg a) (s.engine.reg b) (s.engine.reg m))) false false 0)
  | barrett {rd hi lo m : RegIdx} (hm : s.engine.reg m ≠ 0) :
      ExecResult s (.barrett rd hi lo m) (s.afterOk
        (s.engine.setReg rd ((s.engine.reg hi * s.cfg.radix + s.engine.reg lo) % s.engine.reg m)) false false 0)
  | fermat {rd n : RegIdx} (hn : s.engine.reg n ≠ 0) :
      ExecResult s (.fermat rd n) (s.afterOk (s.engine.setReg rd (fermatScan (s.engine.reg n) probes 0).2)
        ((fermatScan (s.engine.reg n) probes 0).1 == probes.length) false
        (Fin.ofNat 16 (fermatScan (s.engine.reg n) probes 0).1))
  | egcd {a b : RegIdx} :
      ExecResult s (.egcd a b) (s.afterOk
        (s.engine.setTriple (EG (s.engine.reg a) (s.engine.reg b)).1 (EG (s.engine.reg a) (s.engine.reg b)).2.1
          (EG (s.engine.reg a) (s.engine.reg b)).2.2) false false 0)
  | modinv {rd a b : RegIdx} (hab : ¬(s.engine.reg a = 1 ∧ s.engine.reg b = 0)) :
      ExecResult s (.modinv rd a b) (s.afterOk
        ((s.engine.setTriple (EG (s.engine.reg a) (s.engine.reg b)).1 (EG (s.engine.reg a) (s.engine.reg b)).2.1
          (EG (s.engine.reg a) (s.engine.reg b)).2.2).setReg rd
            (if Nat.gcd (s.engine.reg a) (s.engine.reg b) = 1 then inv (s.engine.reg a) (s.engine.reg b) else 0))
        false (decide (Nat.gcd (s.engine.reg a) (s.engine.reg b) ≠ 1)) 0)

theorem execResult_of_exec {i : Instr} {s t : State} (h : exec i s = .next t) : ExecResult s i t := by
  cases he : errorOf s.engine i with
  | some c =>
    cases (exec_eq_afterError he).symm.trans h
    exact .error he
  | none =>
    cases i with simp only [errorOf] at he
    | modexp rd a e m =>
      split_ifs at he with hm
      cases (exec_modexp_eq_afterOk rd a e m s hm).symm.trans h
      exact .modexp hm
    | montmul rd a b m =>
      split_ifs at he with hm heven hrange
      obtain ⟨hodd, ha, hb⟩ : s.engine.reg m % 2 = 1 ∧ s.engine.reg a < s.engine.reg m ∧
        s.engine.reg b < s.engine.reg m := by omega
      cases (exec_montmul_eq_afterOk rd a b m s hodd ha hb).symm.trans h
      exact .montmul hodd ha hb
    | barrett rd hi lo m =>
      split_ifs at he with hm
      cases (exec_barrett_eq_afterOk rd hi lo m s hm).symm.trans h
      exact .barrett hm
    | fermat rd n =>
      split_ifs at he with hn
      cases (exec_fermat_eq_afterOk rd n s hn).symm.trans h
      exact .fermat hn
    | egcd a b =>
      cases (exec_egcd_eq_afterOk a b s).symm.trans h
      exact .egcd
    | modinv rd a b =>
      split_ifs at he with hab
      cases (exec_modinv_eq_afterOk rd a b s hab).symm.trans h
      exact .modinv hab

/-! ### The invariant: what does not break it -/

section inv
variable {s t : State}

/-- The invariant speaks of the parameters and the engine alone. -/
theorem State.Inv.congr (hs : s.Inv) (hc : t.cfg = s.cfg) (he : t.engine = s.engine) : t.Inv := by
  obtain ⟨cfg, eng, inbox, reads, draws⟩ := t
  subst hc he
  exact { hs with }

/-- The reset values meet the invariant at all valid parameters (R48). -/
theorem inv_of_engine_reset (hv : s.cfg.Valid) (he : s.engine = Engine.reset) : s.Inv := by
  have hpos : 0 < s.cfg.radix := Nat.two_pow_pos _
  constructor
  case cfg_valid => exact hv
  case regs_lt => exact fun i => by rwa [he, Engine.reset_reg]
  case results_lt => exact fun r => by rwa [he, Engine.reset_resultReg]
  all_goals simp [he, Engine.reset]

theorem State.Inv.one_lt_radix (hs : s.Inv) : 1 < s.cfg.radix := by
  obtain ⟨-, hopw, -⟩ := hs.cfg_valid
  exact Nat.one_lt_two_pow (by omega)

/-- An error writes its code and clears what else a completion writes (R176). -/
theorem State.Inv.afterError (hs : s.Inv) (c : ErrCode) : (s.afterError c.code).Inv :=
  { hs with
    busy_not_done := by simp [State.afterError]
    err_le := c.code_le
    failidx_le := Nat.zero_le 9
    prime_iff := by simp [State.afterError]
    err_flags := fun _ => ⟨rfl, rfl, rfl⟩
    noinv_flags := fun _ => rfl }

/-- A command that ends without error keeps the invariant when its results fit and its flags agree (R12, R24, R43). -/
theorem State.Inv.afterOk (hs : s.Inv) {e : Engine} {p n : Bool} {idx : Fin 16}
    (hregs : ∀ k, e.reg k < s.cfg.radix) (hresults : ∀ r, e.resultReg r < s.cfg.radix)
    (hsigns : (e.XNEG = true → e.CX ≠ 0) ∧ (e.YNEG = true → e.CY ≠ 0)) (hidx : idx.val ≤ 9)
    (hprime : p = true ↔ idx.val = 9) (hnoinv : n = true → idx.val = 0) : (s.afterOk e p n idx).Inv where
  cfg_valid := hs.cfg_valid
  regs_lt := hregs
  results_lt := hresults
  busy_not_done := by simp [State.afterOk]
  err_le := Nat.zero_le 4
  failidx_le := hidx
  prime_iff := hprime
  err_flags := fun h => absurd rfl h
  noinv_flags := hnoinv
  no_negative_zero := hsigns

/-- A command that writes one operand register keeps the invariant when its value fits. -/
theorem State.Inv.afterOk_setReg (hs : s.Inv) {rd : RegIdx} {v : Nat} {p : Bool} {idx : Fin 16} (hv : v < s.cfg.radix)
    (hidx : idx.val ≤ 9) (hprime : p = true ↔ idx.val = 9) : (s.afterOk (s.engine.setReg rd v) p false idx).Inv := by
  refine hs.afterOk (fun k => ?_) hs.results_lt hs.no_negative_zero hidx hprime (fun h => nomatch h)
  rw [Engine.reg_setReg]
  split
  · exact hv
  · exact hs.regs_lt k

/-- The triple of two operands fits where they do, and has no negative zero (R24, R152). -/
theorem State.Inv.setTriple (hs : s.Inv) (rs1 rs2 : RegIdx) :
    let e := s.engine.setTriple (EG (s.engine.reg rs1) (s.engine.reg rs2)).1 (EG (s.engine.reg rs1) (s.engine.reg rs2)).2.1
      (EG (s.engine.reg rs1) (s.engine.reg rs2)).2.2
    (∀ r, e.resultReg r < s.cfg.radix) ∧ (e.XNEG = true → e.CX ≠ 0) ∧ (e.YNEG = true → e.CY ≠ 0) := by
  intro e
  have hholds : e.HoldsEG (s.engine.reg rs1) (s.engine.reg rs2) := Engine.holdsEG_of_fields rfl rfl rfl rfl rfl
  obtain ⟨hG, hX, hY⟩ := hholds.lt hs.one_lt_radix (hs.regs_lt rs1) (hs.regs_lt rs2)
  refine ⟨fun r => by cases r <;> assumption, ?_, ?_⟩
  · simp only [e, Engine.setTriple_XNEG, Engine.setTriple_CX, decide_eq_true_eq]
    omega
  · simp only [e, Engine.setTriple_YNEG, Engine.setTriple_CY, decide_eq_true_eq]
    omega

/-! ### The invariant: the completion of a command -/

/-- FERMAT's residue is no larger than its candidate. -/
theorem fermatScan_snd_le {n : Nat} (hn : 0 < n) (ps : List Nat) (i : Nat) : (fermatScan n ps i).2 ≤ n := by
  induction ps generalizing i with
  | nil => exact hn
  | cons p ps ih =>
    rw [fermatScan_cons]
    split
    · exact ih (i + 1)
    · exact (Nat.mod_lt _ hn).le

/-- Every command keeps the invariant: each result is a residue of an operand or bounded by `EG_natAbs_le`. -/
theorem exec_keeps_inv {i : Instr} (hs : s.Inv) (h : exec i s = .next t) : t.Inv := by
  have residue_lt {m : RegIdx} (x : Nat) (hm : s.engine.reg m ≠ 0) : x % s.engine.reg m < s.cfg.radix :=
    (Nat.mod_lt x (Nat.pos_of_ne_zero hm)).trans (hs.regs_lt m)
  cases execResult_of_exec h with
  | error => exact hs.afterError _
  | modexp hm => exact hs.afterOk_setReg (residue_lt _ hm) (Nat.zero_le 9) (by simp)
  | @montmul rd a b m hodd ha hb =>
    exact hs.afterOk_setReg ((montProduct_lt s.cfg _ _ _ (by omega)).trans (hs.regs_lt m)) (Nat.zero_le 9) (by simp)
  | barrett hm => exact hs.afterOk_setReg (residue_lt _ hm) (Nat.zero_le 9) (by simp)
  | @fermat rd n hn =>
    refine hs.afterOk_setReg ((fermatScan_snd_le (Nat.pos_of_ne_zero hn) _ _).trans_lt (hs.regs_lt n)) ?_ ?_
    · rw [failidx_val]
      exact fermatScan_fst_le _ probes 0
    · rw [failidx_val, beq_iff_eq]
      rfl
  | @egcd a b =>
    obtain ⟨hresults, hsigns⟩ := hs.setTriple a b
    exact hs.afterOk hs.regs_lt hresults hsigns (Nat.zero_le 9) (by simp) (fun _ => rfl)
  | @modinv rd a b hab =>
    obtain ⟨hresults, hsigns⟩ := hs.setTriple a b
    refine hs.afterOk (fun k => ?_) hresults hsigns (Nat.zero_le 9) (by simp) (fun _ => rfl)
    rw [Engine.reg_setReg]
    split_ifs with hk hg
    · have hb : 0 < s.engine.reg b := by
        by_contra hzero
        exact hab ((gcd_eq_one_and_eq_zero_iff _ _).mp ⟨hg, by omega⟩)
      exact (inv_lt _ _ hb).trans (hs.regs_lt b)
    · exact Nat.zero_lt_of_lt hs.one_lt_radix
    · exact hs.regs_lt k

theorem completeCommand_keeps_inv (hs : s.Inv) (h : completeCommand s = .next t) : t.Inv := by
  cases hd : decode s.engine.CMDL with
  | ok i => exact exec_keeps_inv hs (completeCommand_of_decode_ok hd ▸ h)
  | error r =>
    cases (completeCommand_of_decode_error hd).symm.trans h
    exact hs.afterError .illegal

/-! ### The invariant: the host's writes -/

theorem writeSlot_keeps_inv {a : Arrival} {w : Word} {slot : Slot} (hs : s.Inv) (hw : a.Writes s.cfg w slot) :
    ({ s with engine := writeSlot s.engine w slot } : State).Inv := by
  cases slot with
  | ctrl =>
    simp only [writeSlot]
    split
    · exact inv_of_engine_reset hs.cfg_valid rfl
    · exact { hs with }
  | status =>
    refine { hs with busy_not_done := ?_ }
    rintro ⟨hb, hd⟩
    exact hs.busy_not_done ⟨hb, (Bool.and_eq_true_iff.mp hd).1⟩
  | cmd =>
    simp only [writeSlot]
    split
    · exact { hs with }
    · exact { hs with busy_not_done := by simp }
  | operand i j =>
    simp only [writeSlot]
    split
    · exact { hs with }
    · refine { hs with regs_lt := fun k => ?_ }
      simp only [Engine.reg_setReg]
      have hlt (k : RegIdx) : s.engine.reg k < 2 ^ (32 * s.cfg.nl) := opw_eq s.cfg hs.cfg_valid ▸ hs.regs_lt k
      rw [Config.radix, opw_eq s.cfg hs.cfg_valid]
      split
      · exact setLimb_lt _ j w s.cfg.nl (lt_nl_of_writes_operand hw) (hlt i)
      · exact hlt k
  | id | result _ _ | reserved => exact hs

end inv

/-- Settles O58: the reference parameters are valid. -/
theorem resetMeetsInvariant : Obligations.ResetMeetsInvariant := inv_of_engine_reset (by decide) rfl

/-- Settles O59, by what a step can do to the engine. -/
theorem stepKeepsInvariant : Obligations.StepKeepsInvariant := by
  intro s t hs h
  have hcfg : t.cfg = s.cfg := parametersNeverChange s t h
  rcases step_engine_cases h with he | ⟨_, rest, _, hc⟩ | ⟨a, w, slot, _, hw, he⟩ | ⟨_, _, _, he⟩
  · exact hs.congr hcfg he
  · exact completeCommand_keeps_inv (s := { s with inbox := rest }) (hs.congr rfl rfl) hc
  · exact (writeSlot_keeps_inv hs hw).congr hcfg he
  · exact inv_of_engine_reset (hcfg ▸ hs.cfg_valid) he

end Sys2Proof.Machine

namespace Sys2Proof.Machine

/-! ### The values of the commands -/

/-- Settles O11. -/
theorem modexpResult : Obligations.ModexpResult := fun s rd rs1 rs2 rs3 h => exec_modexp_eq_afterOk rd rs1 rs2 rs3 s h

/-- Settles O13. -/
theorem barrettResult : Obligations.BarrettResult := fun s rd rs1 rs2 rs3 h => exec_barrett_eq_afterOk rd rs1 rs2 rs3 s h

/-- R108: everything is 0 modulo 1, where the radix has no inverse in R15's sense. -/
theorem montProduct_one (c : Config) (a b : Nat) : montProduct c a b 1 = 0 := rfl

theorem montProduct_of_ne_one (c : Config) (a b : Nat) {m : Nat} (h : m ≠ 1) :
    montProduct c a b m = a * b * inv (c.radix % m) m % m := if_neg h

/-- `inv(2^OPW mod m, m)` of R108 is an inverse of the radix. -/
theorem radix_mul_inv_mod (c : Config) {m : Nat} (hodd : m % 2 = 1) (h : m ≠ 1) :
    c.radix % m * inv (c.radix % m) m % m = 1 := by
  refine mul_inv_mod _ _ (by omega) ?_
  rw [← Nat.gcd_rec, Nat.gcd_comm]
  exact radix_coprime_of_odd c m hodd

/-- Settles O12: the t of the statement is `inv(2^OPW mod m, m)`. -/
theorem montmulResult : Obligations.MontmulResult := by
  intro s rd rs1 rs2 rs3 hodd ha hb
  have hexec := exec_montmul_eq_afterOk rd rs1 rs2 rs3 s hodd ha hb
  constructor
  · intro hone
    rw [hexec, hone, montProduct_one]
    rfl
  · intro hne
    refine ⟨inv (s.cfg.radix % s.engine.reg rs3) (s.engine.reg rs3), inv_lt _ _ (by omega),
      radix_mul_inv_mod s.cfg hodd hne, ?_⟩
    rw [hexec, montProduct_of_ne_one _ _ _ hne]
    rfl

/-- Settles O18: the walk over the bank stops at the first failing probe, or passes it all. -/
theorem fermatResult : Obligations.FermatResult := fun _ _ _ hn =>
  ⟨fun before after p hbank hpass hfail => exec_fermat_of_first_failure hn before after p hbank hpass hfail,
    fun hpass => exec_fermat_of_all_pass hn hpass⟩

/-- Settles O23: the solution of R151 is EG. -/
theorem egcdResult : Obligations.EgcdResult := by
  intro F hF s rs1 rs2
  rw [hF.eq_EG, exec_egcd_eq_afterOk]
  rfl

/-- Settles O24: the solution of R151 is EG, and its x mod b is `inv(a, b)`. -/
theorem modinvResult : Obligations.ModinvResult := by
  intro F hF s rd rs1 rs2
  rw [hF.eq_EG]
  refine ⟨fun hg hb => ?_, fun hg => ?_⟩
  · have hgcd : Nat.gcd (s.engine.reg rs1) (s.engine.reg rs2) = 1 := EG_gcd _ _ ▸ hg
    rw [exec_modinv_eq_afterOk rd rs1 rs2 s (fun h => hb h.2), if_pos hgcd, hg, decide_eq_false (not_not_intro hgcd)]
    rfl
  · have hgcd : Nat.gcd (s.engine.reg rs1) (s.engine.reg rs2) ≠ 1 := EG_gcd _ _ ▸ hg
    have hdiv : ¬(s.engine.reg rs1 = 1 ∧ s.engine.reg rs2 = 0) := fun h =>
      hgcd ((gcd_eq_one_and_eq_zero_iff _ _).mpr h).1
    rw [exec_modinv_eq_afterOk rd rs1 rs2 s hdiv, if_neg hgcd, decide_eq_true hgcd]
    rfl

/-- The inverse modulo b sees only the residue of its operand. -/
theorem inv_mod_left (a : Nat) {b : Nat} (hb : 1 < b) (hg : Nat.gcd a b = 1) : inv (a % b) b = inv a b := by
  have hg' : Nat.gcd (a % b) b = 1 := by rwa [← Nat.gcd_rec, Nat.gcd_comm]
  have hmod : a * inv (a % b) b ≡ a * inv a b [MOD b] :=
    calc a * inv (a % b) b ≡ a % b * inv (a % b) b [MOD b] := (Nat.mod_modEq a b).symm.mul_right _
      _ ≡ a * inv a b [MOD b] := (mul_inv_mod _ b hb hg').trans (mul_inv_mod a b hb hg).symm
  exact (Nat.ModEq.cancel_left_of_coprime (Nat.gcd_comm _ _ ▸ hg) hmod).eq_of_lt_of_lt (inv_lt _ b (by omega))
    (inv_lt a b (by omega))

/-- Settles O27: reducing a keeps gcd(a, b) and, where that is 1, the inverse. -/
theorem modinvReducesItsOperand : Obligations.ModinvReducesItsOperand := by
  intro s s' rd rs1 rs2 hb hb' ha'
  have hgcd : Nat.gcd (s.engine.reg rs1 % s.engine.reg rs2) (s.engine.reg rs2) =
      Nat.gcd (s.engine.reg rs1) (s.engine.reg rs2) := by
    rw [← Nat.gcd_rec, Nat.gcd_comm]
  refine ⟨_, _, exec_modinv_eq_afterOk rd rs1 rs2 s (by omega), exec_modinv_eq_afterOk rd rs1 rs2 s' (by omega), ?_, ?_⟩
  · simp only [State.afterOk_reg, Engine.reg_setReg_same, ha', hb', hgcd]
    split
    next hg => exact (inv_mod_left _ hb hg).symm
    next => rfl
  · simp only [State.afterOk, ha', hb', hgcd]

/-! ### The frame of a command -/

/-- What a command leaves of the engine e: its control fields, every operand register but its destination, and outside the
Euclid family the triple. -/
structure Engine.KeptBy (i : Instr) (e e' : Engine) : Prop where
  ie : e'.IE = e.IE
  werr : e'.WERR = e.WERR
  cmdl : e'.CMDL = e.CMDL
  reg : ∀ k, destOf i ≠ some k → e'.reg k = e.reg k
  resultReg : isEuclid i = false → ∀ r, e'.resultReg r = e.resultReg r
  signs : isEuclid i = false → e'.XNEG = e.XNEG ∧ e'.YNEG = e.YNEG

theorem Engine.KeptBy.setReg {i : Instr} {rd : RegIdx} (e : Engine) (v : Nat) (h : destOf i = some rd) :
    e.KeptBy i (e.setReg rd v) where
  ie := rfl
  werr := rfl
  cmdl := rfl
  reg := fun k hk => e.reg_setReg_other rd k v fun hkr => hk (hkr ▸ h)
  resultReg := fun _ => e.setReg_resultReg rd v
  signs := fun _ => ⟨rfl, rfl⟩

/-- A command changes nothing but the engine, and keeps of it what `KeptBy` says. -/
theorem exec_frame {i : Instr} {s t : State} (h : exec i s = .next t) :
    t.cfg = s.cfg ∧ t.inbox = s.inbox ∧ t.reads = s.reads ∧ t.draws = s.draws ∧ s.engine.KeptBy i t.engine := by
  have kept_afterOk {e : Engine} {p n : Bool} {idx : Fin 16} (he : s.engine.KeptBy i e) :
      s.engine.KeptBy i (s.afterOk e p n idx).engine := { he with }
  cases execResult_of_exec h with
  | error =>
    exact ⟨rfl, rfl, rfl, rfl, rfl, rfl, rfl, fun _ _ => rfl, fun _ _ => rfl, fun _ => ⟨rfl, rfl⟩⟩
  | modexp | montmul | barrett | fermat => exact ⟨rfl, rfl, rfl, rfl, kept_afterOk (.setReg _ _ rfl)⟩
  | egcd =>
    exact ⟨rfl, rfl, rfl, rfl, rfl, rfl, rfl, fun _ _ => rfl, fun h => (nomatch h), fun h => (nomatch h)⟩
  | modinv =>
    refine ⟨rfl, rfl, rfl, rfl, rfl, rfl, rfl, fun k hk => ?_, fun h => (nomatch h), fun h => (nomatch h)⟩
    rw [State.afterOk_reg, Engine.reg_setReg_other _ _ _ _ fun hkr => hk (congrArg some hkr.symm),
      Engine.setTriple_reg]

/-- A byte of the window reads as before when its slot is none that the command writes. -/
theorem windowByte_eq_of_keptBy {i : Instr} {e e' : Engine} (h : e.KeptBy i e') (c : Config) (off : Nat)
    (hstatus : ¬(0x008 ≤ off ∧ off < 0x00C))
    (hdest : ∀ rd, destOf i = some rd → ¬(operandOffset rd 0 ≤ off ∧ off < operandOffset rd c.nl))
    (hresult : isEuclid i = true → ¬(0x1800 ≤ off ∧ off < 0x1B00)) : windowByte c e' off = windowByte c e off := by
  have hspans := slotAt_spans c off
  unfold windowByte
  cases hslot : slotAt c off with simp only [hslot, Slot.Spans] at hspans
  | id | reserved => rfl
  | ctrl => simp only [slotWord, ctrlWord, h.ie]
  | status => exact absurd hspans hstatus
  | cmd => simp only [slotWord, h.cmdl]
  | operand k j =>
    obtain ⟨hlo, hhi, -⟩ := hspans
    rw [slotWord, slotWord, h.reg k fun hk => hdest k hk ⟨hlo, hhi⟩]
  | result r j =>
    obtain ⟨hlo, hhi, -⟩ := hspans
    have hnot : isEuclid i = false := Bool.eq_false_iff.mpr fun hi => hresult hi ⟨hlo, hhi⟩
    rw [slotWord, slotWord, h.resultReg hnot r]

/-- Settles O36: the fields by `exec_frame`, and the bytes of the window by what each of them is. -/
theorem commandFrame : Obligations.CommandFrame := by
  intro i s t h
  obtain ⟨hcfg, hinbox, hreads, hdraws, hkept⟩ := exec_frame h
  refine ⟨hcfg, hinbox, hreads, hdraws, hkept.ie, hkept.werr, hkept.cmdl, hkept.reg, fun hi => ?_,
    fun off hstatus hdest hresult => ?_⟩
  · exact ⟨hkept.resultReg hi .G, hkept.resultReg hi .CX, hkept.resultReg hi .CY, hkept.signs hi⟩
  · rw [hcfg]
    exact windowByte_eq_of_keptBy hkept s.cfg off hstatus hdest hresult

/-! ### What can change a register -/

/-- A completion that changes the engine outside what an error writes was a command's, without error. -/
theorem exec_of_completeCommand_changes {α : Type} (f : Engine → α) {s t : State} (h : completeCommand s = .next t)
    (hf : ∀ code, f (s.afterError code).engine = f s.engine) (hne : f t.engine ≠ f s.engine) :
    ∃ i, decode s.engine.CMDL = .ok i ∧ exec i s = .next t ∧ t.engine.ERR = 0 := by
  have hok : t.engine.ERR = 0 := by
    by_contra herr
    exact hne (errorsArePrecise s t h herr ▸ hf _)
  cases hd : decode s.engine.CMDL with
  | ok i => exact ⟨i, rfl, completeCommand_of_decode_ok hd ▸ h, hok⟩
  | error r =>
    cases (completeCommand_of_decode_error hd).symm.trans h
    exact absurd (hf 1) hne

/-- A write changes an operand register as a limb of an idle engine, or as a soft reset. -/
theorem writeSlot_changes_reg {e : Engine} {w : Word} {slot : Slot} {k : RegIdx}
    (h : (writeSlot e w slot).reg k ≠ e.reg k) :
    (e.BUSY = false ∧ ∃ j, slot = .operand k j) ∨ (slot = .ctrl ∧ bitSet w 1 = true) := by
  cases slot with
  | ctrl =>
    simp only [writeSlot] at h
    split at h
    next hb => exact .inr ⟨rfl, hb⟩
    next => exact absurd rfl h
  | operand i j =>
    simp only [writeSlot] at h
    split at h
    next => exact absurd rfl h
    next hb =>
      have hk : k = i := by
        by_contra hki
        exact h (Engine.reg_setReg_other _ _ _ _ hki)
      exact .inl ⟨by simpa using hb, j, hk ▸ rfl⟩
  | cmd => simp only [writeSlot] at h; split at h <;> exact absurd rfl h
  | id | status | result _ _ | reserved => exact absurd rfl h

/-- A write changes a result register only as a soft reset. -/
theorem writeSlot_changes_resultReg {e : Engine} {w : Word} {slot : Slot} {r : ResultReg}
    (h : (writeSlot e w slot).resultReg r ≠ e.resultReg r) : slot = .ctrl ∧ bitSet w 1 = true := by
  cases slot with
  | ctrl =>
    simp only [writeSlot] at h
    split at h
    next hb => exact ⟨rfl, hb⟩
    next => exact absurd rfl h
  | cmd | operand _ _ => simp only [writeSlot] at h; split at h <;> exact absurd (by simp) h
  | status => exact absurd (by simp [writeSlot]) h
  | id | result _ _ | reserved => exact absurd rfl h

/-- Settles O52, by what a step can do to the engine. -/
theorem operandRegistersChangeOnlyBy : Obligations.OperandRegistersChangeOnlyBy := by
  intro s t k h hne
  rcases step_engine_cases h with he | ⟨hb, rest, hnext, hc⟩ | ⟨a, w, slot, ha, hw, he⟩ | ⟨a, ha, hr, -⟩
  · exact absurd (by rw [he]) hne
  · obtain ⟨i, hd, hexec, hok⟩ := exec_of_completeCommand_changes (·.reg k) hc (fun _ => rfl) hne
    obtain ⟨-, -, -, -, hkept⟩ := exec_frame hexec
    have hdest : destOf i = some k := by
      by_contra hk
      exact hne (hkept.reg k hk)
    exact .inr (.inl ⟨hb, rest, i, hnext, hd, hdest, hok⟩)
  · rw [he] at hne
    rcases writeSlot_changes_reg hne with ⟨hidle, j, rfl⟩ | ⟨rfl, hsrst⟩
    · exact .inl ⟨hidle, a, w, j, ha, hw⟩
    · exact .inr (.inr ⟨a, ha, resets_of_writes s.cfg a w hw hsrst⟩)
  · exact .inr (.inr ⟨a, ha, hr⟩)

/-- Settles O53, by what a step can do to the engine. -/
theorem resultRegistersChangeOnlyBy : Obligations.ResultRegistersChangeOnlyBy := by
  intro s t r h hne
  rcases step_engine_cases h with he | ⟨hb, rest, hnext, hc⟩ | ⟨a, w, slot, ha, hw, he⟩ | ⟨a, ha, hr, -⟩
  · exact absurd (by rw [he]) hne
  · obtain ⟨i, hd, hexec, hok⟩ := exec_of_completeCommand_changes (·.resultReg r) hc (fun _ => by cases r <;> rfl) hne
    obtain ⟨-, -, -, -, hkept⟩ := exec_frame hexec
    have hi : isEuclid i = true := by
      by_contra hi
      exact hne (hkept.resultReg (by simpa using hi) r)
    exact .inl ⟨hb, rest, i, hnext, hd, hi, hok⟩
  · rw [he] at hne
    obtain ⟨rfl, hsrst⟩ := writeSlot_changes_resultReg hne
    exact .inr ⟨a, ha, resets_of_writes s.cfg a w hw hsrst⟩
  · exact .inr ⟨a, ha, hr⟩

/-! ### DONE -/

/-- No write raises DONE. -/
theorem writeSlot_DONE_eq_false {e : Engine} {w : Word} {slot : Slot} (h0 : e.DONE = false) :
    (writeSlot e w slot).DONE = false := by
  cases slot with
  | cmd | operand _ _ | ctrl => simp only [writeSlot]; split <;> simp [h0, Engine.reset]
  | status => simp [writeSlot, h0]
  | id | result _ _ | reserved => exact h0

/-- A write that clears DONE is an accept, STATUS with bit 1, or a soft reset. -/
theorem writeSlot_DONE_falls {e : Engine} {w : Word} {slot : Slot} (h1 : e.DONE = true)
    (h0 : (writeSlot e w slot).DONE = false) :
    (slot = .cmd ∧ e.BUSY = false) ∨ (slot = .status ∧ bitSet w 1 = true) ∨ (slot = .ctrl ∧ bitSet w 1 = true) := by
  cases slot with
  | cmd =>
    simp only [writeSlot] at h0
    split at h0
    next => simp [h1] at h0
    next hb => exact .inl ⟨rfl, by simpa using hb⟩
  | status => exact .inr (.inl ⟨rfl, by simpa [writeSlot, h1] using h0⟩)
  | ctrl =>
    simp only [writeSlot] at h0
    split at h0
    next hb => exact .inr (.inr ⟨rfl, hb⟩)
    next => simp [h1] at h0
  | operand _ _ => simp only [writeSlot] at h0; split at h0 <;> simp [h1] at h0
  | id | result _ _ | reserved => simp [writeSlot, h1] at h0

/-- Settles O55, by what a step can do to the engine; that a completion ends the command is its frame's. -/
theorem doneRule : Obligations.DoneRule := by
  refine ⟨fun s t h => ?_, fun s rest hnext hb => ?_⟩
  · rcases step_engine_cases h with he | ⟨hb, rest, hnext, hc⟩ | ⟨a, w, slot, ha, hw, he⟩ | ⟨a, ha, hr, he⟩
    · rw [he]
      exact same_neither_rises_nor_falls
    · obtain ⟨-, -, -, -, -, -, -, hdone, -⟩ := completeCommand_frame _ t hc
      exact ⟨fun _ _ => ⟨hb, rest, hnext⟩, fun _ h0 => absurd (hdone.symm.trans h0) (by decide)⟩
    · rw [he]
      refine ⟨fun h0 h1 => absurd (h1.symm.trans (writeSlot_DONE_eq_false h0)) (by decide), fun h1 h0 => ⟨a, ha, ?_⟩⟩
      rcases writeSlot_DONE_falls h1 h0 with ⟨rfl, hidle⟩ | ⟨rfl, hack⟩ | ⟨rfl, hsrst⟩
      · exact .inl ⟨hidle, w, hw⟩
      · exact .inr (.inl ⟨w, hw, bitSet_eq_getLsbD w 1 ▸ hack⟩)
      · exact .inr (.inr (resets_of_writes s.cfg a w hw hsrst))
    · rw [he]
      exact ⟨fun _ h1 => (nomatch h1), fun _ _ => ⟨a, ha, .inr (.inr hr)⟩⟩
  · obtain ⟨t, ht⟩ := completeCommand_next { s with inbox := rest }
    obtain ⟨-, hinbox, -, -, -, -, -, hdone, hbusy⟩ := completeCommand_frame _ t ht
    exact ⟨t, (step_complete s rest hnext hb).trans ht, hdone, hbusy, hinbox⟩

end Sys2Proof.Machine

namespace Sys2Proof.Machine

/-! ### A step at the engine's turn, and of an access outside the window -/

/-- Settles O6: at the engine's turn a running command completes, which is exec of the command its word decodes to. -/
theorem stepRunsDecodedCommand : Obligations.StepRunsDecodedCommand := by
  refine ⟨fun s rest i hnext hb hd => ?_, fun s nbits w i hd => ?_, step_idle⟩
  · rw [step_complete s rest hnext hb]
    exact completeCommand_of_decode_ok (s := { s with inbox := rest }) hd
  · rw [step_complete (s.withFetchWord nbits w) s.inbox (.inl rfl) rfl]
    exact completeCommand_of_decode_ok
      (s := { s with engine := s.engine.accept (BitVec.ofNat 32 (w % 2 ^ nbits)) }) hd

theorem hostAccess_outside (a : BusAccess) (s : State) (hout : inWindow s.cfg a.addr = false) :
    hostAccess a s = .next s := by
  simp [hostAccess, hout]

/-- Settles O47. -/
theorem accessOutsideTheWindow : Obligations.AccessOutsideTheWindow := by
  intro s rest a h hout
  have hin : inWindow s.cfg a.addr = false := by
    rw [Bool.eq_false_iff, Ne, inWindow_eq_true_iff]
    omega
  rw [step_eq_hostAccess s rest a h]
  exact hostAccess_outside a { s with inbox := rest } hin

/-! ### WAIT (R93, R223) -/

theorem run_one {s t : State} (h : step s = .next t) : run 1 s = .next t := run_succ 0 s t h

section wait
variable {s : State} {polls : Nat} {rest : List Arrival}

/-- A turn of WAIT records one read of STATUS, and may change what comes next. -/
theorem hostWait_eq (polls : Nat) (rest : List Arrival) (s : State) :
    hostWait polls rest s =
      { s with inbox := (hostWait polls rest s).inbox, reads := ⟨0x008, statusWord s.engine⟩ :: s.reads } := by
  simp only [hostWait]
  rw [hostRead_exact 0x008 s (.inr rfl)]
  rfl

theorem step_wait_done (h : s.inbox = .waitDone polls :: rest) (hd : s.engine.DONE = true) :
    step s = .next { s with inbox := rest, reads := ⟨0x008, statusWord s.engine⟩ :: s.reads } := by
  rw [step_wait polls rest s h, hostWait_eq, hostWait_done polls rest s hd]

theorem step_wait_hang (h : s.inbox = .waitDone polls :: rest) (hd : s.engine.DONE = false) (hb : s.engine.BUSY = false) :
    step s = .next { s with reads := ⟨0x008, statusWord s.engine⟩ :: s.reads } := by
  rw [step_wait polls rest s h, hostWait_eq, hostWait_hang polls rest s hd hb, ← h]

/-- With no command running WAIT reads the same STATUS in every step. -/
theorem run_wait_hang (h : s.inbox = .waitDone polls :: rest) (hd : s.engine.DONE = false) (hb : s.engine.BUSY = false)
    (n : Nat) :
    run n s = .next ({ s with reads := List.replicate n ⟨0x008, statusWord s.engine⟩ ++ s.reads } : State) := by
  induction n with
  | zero => rfl
  | succ n ih =>
    rw [run_add n 1 s _ ih]
    exact run_one (step_wait_hang h hd hb)

/-- While a command runs WAIT reads STATUS until the engine's turn comes. -/
theorem run_wait_busy (h : s.inbox = .waitDone polls :: rest) (hd : s.engine.DONE = false) (hb : s.engine.BUSY = true) :
    run (polls + 1) s = .next ({ s with
      inbox := .engineTurn :: .waitDone 0 :: rest,
      reads := List.replicate (polls + 1) ⟨0x008, statusWord s.engine⟩ ++ s.reads } : State) := by
  induction polls generalizing s with
  | zero =>
    rw [run_one (step_wait 0 rest s h), hostWait_eq, (hostWait_busy 0 rest s hd hb).2]
    rfl
  | succ k ih =>
    have hstep : step s = .next { s with
        inbox := .waitDone k :: rest, reads := ⟨0x008, statusWord s.engine⟩ :: s.reads } := by
      rw [step_wait (k + 1) rest s h, hostWait_eq, (hostWait_busy k rest s hd hb).1]
    rw [run_succ (k + 1) s _ hstep, List.replicate_succ', List.append_assoc]
    exact ih (s := { s with inbox := .waitDone k :: rest, reads := ⟨0x008, statusWord s.engine⟩ :: s.reads }) rfl hd hb

/-- The whole of a WAIT while a command runs: the reads before the completion, the completion, the read that ends it. -/
theorem run_wait_completes (h : s.inbox = .waitDone polls :: rest) (hd : s.engine.DONE = false)
    (hb : s.engine.BUSY = true) :
    ∃ u : State, completeCommand s = .next u ∧
      run (polls + 3) s = .next ({ s with
        inbox := rest, engine := u.engine,
        reads := ⟨0x008, statusWord u.engine⟩ ::
          (List.replicate (polls + 1) ⟨0x008, statusWord s.engine⟩ ++ s.reads) } : State) := by
  obtain ⟨e, he⟩ := completeCommand_env s.cfg s.engine
  obtain ⟨-, -, -, -, -, -, -, hdone, -⟩ := completeCommand_frame s _ (he s.inbox s.reads s.draws)
  refine ⟨_, he s.inbox s.reads s.draws, ?_⟩
  have hturn := (step_complete { s with
    inbox := .engineTurn :: .waitDone 0 :: rest,
    reads := List.replicate (polls + 1) ⟨0x008, statusWord s.engine⟩ ++ s.reads } _ (.inl rfl) hb).trans (he _ _ _)
  rw [run_add (polls + 1) 2 s _ (run_wait_busy h hd hb), run_succ 1 _ _ hturn]
  exact run_one (step_wait_done rfl hdone)

end wait

/-- Settles O60: each of the three cases is a run of WAIT's own. -/
theorem waitEndsOrHangs : Obligations.WaitEndsOrHangs := by
  intro s polls rest h
  refine ⟨step_wait_done h, fun hd hb => ?_, run_wait_hang h⟩
  obtain ⟨u, hu, hrun⟩ := run_wait_completes h hd hb
  exact ⟨u, _, hu, hrun, rfl⟩

/-! ### The end of a run (R221, R223) -/

section ends
variable {s : State} {a : Arrival} {rest : List Arrival}

/-- An accepted arrival that is no WAIT takes one step. -/
theorem step_accepted (h : s.inbox = a :: rest) (ha : a.Accepted s.cfg) (hw : ¬a.IsWait) :
    ∃ t, step s = .next t ∧ t.inbox = rest ∧ t.cfg = s.cfg := by
  have inbox_of_next (hnext : ∃ t, step s = .next t) (hinbox : ∀ t, step s = .next t → t.inbox = rest) :
      ∃ t, step s = .next t ∧ t.inbox = rest ∧ t.cfg = s.cfg := by
    obtain ⟨t, ht⟩ := hnext
    exact ⟨t, ht, hinbox t ht, parametersNeverChange s t ht⟩
  cases a with
  | access b =>
    refine inbox_of_next ?_ fun t ht => (step_access s t b rest h ht).2.1
    rw [step_eq_hostAccess s rest b h]
    cases hin : inWindow s.cfg b.addr with
    | false => exact ⟨_, hostAccess_outside b { s with inbox := rest } hin⟩
    | true => exact hostAccess_accepted b { s with inbox := rest } hin (ha hin)
  | engineTurn =>
    cases hb : s.engine.BUSY with
    | false => exact ⟨_, step_idle s rest (.inl h) hb, rfl, rfl⟩
    | true =>
      obtain ⟨t, ht⟩ := completeCommand_next { s with inbox := rest }
      obtain ⟨hcfg, hinbox, -⟩ := completeCommand_frame _ t ht
      exact ⟨t, (step_complete s rest (.inl h) hb).trans ht, hinbox, hcfg⟩
  | hardwareReset => exact ⟨State.resetEngine { s with inbox := rest }, by rw [step, h], rfl, rfl⟩
  | waitDone polls => exact absurd trivial hw

/-- With nothing left on the bus one step leaves no command running. -/
theorem step_nil (h : s.inbox = []) : ∃ t, step s = .next t ∧ t.inbox = [] ∧ t.engine.BUSY = false := by
  cases hb : s.engine.BUSY with
  | false => exact ⟨_, step_idle s [] (.inr ⟨h, rfl⟩) hb, rfl, hb⟩
  | true =>
    obtain ⟨t, ht⟩ := completeCommand_next { s with inbox := [] }
    obtain ⟨-, hinbox, -, -, -, -, -, -, hbusy⟩ := completeCommand_frame _ t ht
    exact ⟨t, (step_complete s [] (.inr ⟨h, rfl⟩) hb).trans ht, hinbox, hbusy⟩

/-- A run without WAITs takes one step for each arrival and one more. -/
theorem run_ends (arrivals : List Arrival) (h : s.inbox = arrivals)
    (ha : ∀ a ∈ arrivals, a.Accepted s.cfg ∧ ¬a.IsWait) :
    ∃ t, run (arrivals.length + 1) s = .next t ∧ t.inbox = [] ∧ t.engine.BUSY = false := by
  induction arrivals generalizing s with
  | nil =>
    obtain ⟨t, ht, hinbox, hbusy⟩ := step_nil h
    exact ⟨t, run_one ht, hinbox, hbusy⟩
  | cons a arrivals ih =>
    obtain ⟨haccepted, hwait⟩ := ha a List.mem_cons_self
    obtain ⟨u, hu, hinbox, hcfg⟩ := step_accepted h haccepted hwait
    obtain ⟨t, ht, hend⟩ := ih hinbox fun b hb => hcfg ▸ ha b (List.mem_cons_of_mem a hb)
    exact ⟨t, (run_succ _ s u hu).trans ht, hend⟩

/-- An accepted arrival is done with after some steps, or is a WAIT that hangs. -/
theorem run_accepted_or_hangs (h : s.inbox = a :: rest) (ha : a.Accepted s.cfg) :
    s.Hangs ∨ ∃ k t, run k s = .next t ∧ t.inbox = rest ∧ t.cfg = s.cfg := by
  by_cases hw : a.IsWait
  · cases a with
    | waitDone polls =>
      cases hd : s.engine.DONE with
      | true => exact .inr ⟨1, _, run_one (step_wait_done h hd), rfl, rfl⟩
      | false =>
        cases hb : s.engine.BUSY with
        | true =>
          obtain ⟨u, -, hrun⟩ := run_wait_completes h hd hb
          exact .inr ⟨_, _, hrun, rfl, rfl⟩
        | false => exact .inl ⟨hb, hd, polls, rest, h⟩
    | access | engineTurn | hardwareReset => exact hw.elim
  · obtain ⟨t, ht, hrest⟩ := step_accepted h ha hw
    exact .inr ⟨1, t, run_one ht, hrest⟩

theorem run_ends_or_hangs (arrivals : List Arrival) (h : s.inbox = arrivals) (ha : ∀ a ∈ arrivals, a.Accepted s.cfg) :
    ∃ k t, run k s = .next t ∧ (t.inbox = [] ∧ t.engine.BUSY = false ∨ t.Hangs) := by
  induction arrivals generalizing s with
  | nil =>
    obtain ⟨t, ht, hend⟩ := step_nil h
    exact ⟨1, t, run_one ht, .inl hend⟩
  | cons a arrivals ih =>
    rcases run_accepted_or_hangs h (ha a List.mem_cons_self) with hhangs | ⟨j, u, hu, hinbox, hcfg⟩
    · exact ⟨0, s, rfl, .inr hhangs⟩
    · obtain ⟨k, t, ht, hend⟩ := ih hinbox fun b hb => hcfg ▸ ha b (List.mem_cons_of_mem a hb)
      exact ⟨j + k, t, (run_add j k s u hu).trans ht, hend⟩

end ends

/-- Settles O9, by induction on what is left in the inbox. -/
theorem everyRunEndsIdle : Obligations.EveryRunEndsIdle := fun s ha =>
  ⟨fun hw => run_ends s.inbox rfl fun a hmem => ⟨ha a hmem, hw a hmem⟩, run_ends_or_hangs s.inbox rfl ha⟩

/-! ### The busy interval of a command (R70) -/

/-- The engine with other values of what the host can change while a command runs: IE, DONE and WERR. -/
def Engine.withHostFlags (e : Engine) (ie done werr : Bool) : Engine := { e with IE := ie, DONE := done, WERR := werr }

/-- While busy, a write that does not reset changes the host's flags alone (R211). -/
theorem writeSlot_busy {e : Engine} {w : Word} {slot : Slot} (hb : e.BUSY = true)
    (hr : ¬(slot = .ctrl ∧ bitSet w 1 = true)) :
    ∃ ie done werr, writeSlot e w slot = e.withHostFlags ie done werr := by
  cases slot with
  | ctrl =>
    have hbit : ¬bitSet w 1 = true := fun h => hr ⟨rfl, h⟩
    exact ⟨bitSet w 0, e.DONE, e.WERR, if_neg hbit⟩
  | status => exact ⟨e.IE, e.DONE && !bitSet w 1, e.WERR && !bitSet w 6, rfl⟩
  | cmd => exact ⟨e.IE, e.DONE, true, if_pos hb⟩
  | operand i j => exact ⟨e.IE, e.DONE, true, if_pos hb⟩
  | id | result _ _ | reserved => exact ⟨e.IE, e.DONE, e.WERR, rfl⟩

/-- An accepted access short of a reset changes the host's flags alone while a command runs. -/
theorem step_busy_access {s : State} {a : Arrival} {rest : List Arrival} (hb : s.engine.BUSY = true)
    (h : s.inbox = a :: rest) (hhost : a.FromHost) (hacc : a.Accepted s.cfg) (hr : ¬a.Resets s.cfg) :
    ∃ t, step s = .next t ∧ t.inbox = rest ∧ t.cfg = s.cfg ∧
      ∃ ie done werr, t.engine = s.engine.withHostFlags ie done werr := by
  cases a with
  | access b =>
    obtain ⟨t, ht, hinbox, hcfg⟩ := step_accepted h hacc id
    refine ⟨t, ht, hinbox, hcfg, ?_⟩
    obtain ⟨-, -, hsame | ⟨w, slot, hw, he⟩⟩ := step_access s t b rest h ht
    · exact ⟨s.engine.IE, s.engine.DONE, s.engine.WERR, hsame⟩
    · rw [he]
      refine writeSlot_busy hb ?_
      rintro ⟨rfl, hsrst⟩
      exact hr (resets_of_writes s.cfg _ w hw hsrst)
  | hardwareReset => exact absurd trivial hr
  | engineTurn | waitDone _ => exact hhost.elim

/-- Accepted accesses short of a reset, one step each, while a command runs. -/
theorem run_busy_accesses {s : State} (accs rest : List Arrival) (hb : s.engine.BUSY = true)
    (h : s.inbox = accs ++ rest) (ha : ∀ a ∈ accs, a.FromHost ∧ a.Accepted s.cfg ∧ ¬a.Resets s.cfg) :
    ∃ t, run accs.length s = .next t ∧ t.inbox = rest ∧ t.cfg = s.cfg ∧
      ∃ ie done werr, t.engine = s.engine.withHostFlags ie done werr := by
  induction accs generalizing s with
  | nil => exact ⟨s, rfl, h, rfl, s.engine.IE, s.engine.DONE, s.engine.WERR, rfl⟩
  | cons a accs ih =>
    obtain ⟨hhost, hacc, hr⟩ := ha a List.mem_cons_self
    obtain ⟨u, hu, hinbox, hcfg, _, _, _, heu⟩ := step_busy_access hb h hhost hacc hr
    have hbu : u.engine.BUSY = true := by rw [heu]; exact hb
    obtain ⟨t, ht, hrest, hcfg', ie, done, werr, het⟩ :=
      ih hbu hinbox fun b hmem => hcfg ▸ ha b (List.mem_cons_of_mem a hmem)
    exact ⟨t, (run_succ _ s u hu).trans ht, hrest, hcfg'.trans hcfg, ie, done, werr, by rw [het, heu]; rfl⟩

section withHostFlags
variable {s u : State} (ie done werr : Bool)

/-- The host's flags have no part in the error of a command. -/
theorem errorOf_withHostFlags (e : Engine) (i : Instr) : errorOf (e.withHostFlags ie done werr) i = errorOf e i := by
  cases i <;> rfl

/-- A command neither reads nor writes IE and WERR, and does not read DONE. -/
theorem exec_withHostFlags {i : Instr} (hu : exec i s = .next u) :
    exec i { s with engine := s.engine.withHostFlags ie done werr } =
      .next { u with engine := u.engine.withHostFlags ie true werr } := by
  cases execResult_of_exec hu with
  | error he => exact exec_eq_afterError ((errorOf_withHostFlags ie done werr s.engine i).trans he)
  | modexp hm => exact exec_modexp_eq_afterOk _ _ _ _ { s with engine := s.engine.withHostFlags ie done werr } hm
  | montmul hodd ha hb =>
    exact exec_montmul_eq_afterOk _ _ _ _ { s with engine := s.engine.withHostFlags ie done werr } hodd ha hb
  | barrett hm => exact exec_barrett_eq_afterOk _ _ _ _ { s with engine := s.engine.withHostFlags ie done werr } hm
  | fermat hn => exact exec_fermat_eq_afterOk _ _ { s with engine := s.engine.withHostFlags ie done werr } hn
  | egcd => exact exec_egcd_eq_afterOk _ _ { s with engine := s.engine.withHostFlags ie done werr }
  | modinv hab => exact exec_modinv_eq_afterOk _ _ _ { s with engine := s.engine.withHostFlags ie done werr } hab

theorem completeCommand_withHostFlags (hu : completeCommand s = .next u) :
    completeCommand { s with engine := s.engine.withHostFlags ie done werr } =
      .next { u with engine := u.engine.withHostFlags ie true werr } := by
  cases hd : decode s.engine.CMDL with
  | ok i =>
    rw [completeCommand_of_decode_ok hd] at hu
    exact (completeCommand_of_decode_ok (s := { s with engine := s.engine.withHostFlags ie done werr }) hd).trans
      (exec_withHostFlags ie done werr hu)
  | error r =>
    cases (completeCommand_of_decode_error hd).symm.trans hu
    exact completeCommand_of_decode_error (r := r) hd

end withHostFlags

/-- Settles O10: before the engine's turn the host changes IE, DONE and WERR alone, which have no part in the command. -/
theorem resultIsFixedAtAccept : Obligations.ResultIsFixedAtAccept := by
  intro s accs rest hb h ha
  obtain ⟨v, hrun, hinbox, hcfg, ie, done, werr, hv⟩ := run_busy_accesses accs (.engineTurn :: rest) hb h ha
  have hvb : v.engine.BUSY = true := by rw [hv]; exact hb
  refine ⟨⟨v, hrun, hvb, by rw [hv]; rfl, by rw [hv]; rfl⟩, ?_⟩
  obtain ⟨e, he⟩ := completeCommand_env s.cfg s.engine
  have hu : completeCommand s = .next { s with engine := e } := he s.inbox s.reads s.draws
  obtain ⟨-, -, -, -, -, -, hcmdl, -, hbusy⟩ := completeCommand_frame _ _ hu
  have hturn : step v = .next { v with inbox := rest, engine := e.withHostFlags ie true werr } := by
    obtain ⟨cfg, eng, inbox, reads, draws⟩ := v
    subst hcfg hv
    exact (step_complete _ rest (.inl hinbox) hvb).trans
      (completeCommand_withHostFlags ie done werr (he rest reads draws))
  exact ⟨_, _, (run_add accs.length 1 s v hrun).trans (run_one hturn), hu, rfl, rfl, rfl, rfl, hcmdl, rfl, rfl, rfl, rfl,
    rfl, rfl, hbusy, rfl⟩

/-! ### LOAD (R62, R93) -/

/-- The value of a register after the low n limbs of v were written into it: v below, what was there above. -/
theorem foldl_setLimb_range (u v n : Nat) :
    (List.range n).foldl (fun x j => setLimb x j (limb v j)) u =
      u / 2 ^ (32 * n) * 2 ^ (32 * n) + v % 2 ^ (32 * n) := by
  induction n with
  | zero => simp [Nat.mod_one]
  | succ n ih =>
    have hlow : v % 2 ^ (32 * n) < 2 ^ (32 * n) := Nat.mod_lt _ (Nat.two_pow_pos _)
    have hsplit : 2 ^ (32 * (n + 1)) = 2 ^ (32 * n) * 2 ^ 32 := by rw [← pow_add]; rfl
    have hmod : (u / 2 ^ (32 * n) * 2 ^ (32 * n) + v % 2 ^ (32 * n)) % 2 ^ (32 * n) = v % 2 ^ (32 * n) := by
      rw [Nat.mul_add_mod', Nat.mod_mod]
    have hdiv : (u / 2 ^ (32 * n) * 2 ^ (32 * n) + v % 2 ^ (32 * n)) / 2 ^ (32 * (n + 1)) = u / 2 ^ (32 * (n + 1)) := by
      rw [hsplit, ← Nat.div_div_eq_div_mul, ← Nat.div_div_eq_div_mul, Nat.mul_comm,
        Nat.mul_add_div (Nat.two_pow_pos _), Nat.div_eq_of_lt hlow, Nat.add_zero]
    rw [List.range_succ, List.foldl_append, ih, List.foldl_cons, List.foldl_nil, setLimb, hmod, hdiv, mod_limb_succ v n,
      Nat.add_comm]

/-- Every limb written, the register holds the value (R62). -/
theorem foldl_setLimb_eq (n : Nat) {u v : Nat} (hu : u < 2 ^ (32 * n)) (hv : v < 2 ^ (32 * n)) :
    (List.range n).foldl (fun x j => setLimb x j (limb v j)) u = v := by
  rw [foldl_setLimb_range, Nat.div_eq_of_lt hu, Nat.mod_eq_of_lt hv, Nat.zero_mul, Nat.zero_add]

theorem Engine.setReg_setReg (e : Engine) (i : RegIdx) (u v : Nat) : (e.setReg i u).setReg i v = e.setReg i v := by
  simp [Engine.setReg]

theorem Engine.setReg_reg_self (e : Engine) (i : RegIdx) : e.setReg i (e.reg i) = e := by
  simp [Engine.setReg, Engine.reg]

/-- One limb write of LOAD by an idle engine. -/
theorem step_w32_limb {s : State} {i : RegIdx} {j : Nat} {w : Word} {rest : List Arrival} (hb : s.engine.BUSY = false)
    (hj : j < s.cfg.nl) (h64 : j < 64) (h : s.inbox = w32 s.cfg (operandOffset i j) w :: rest) :
    step s = .next { s with inbox := rest, engine := s.engine.setReg i (setLimb (s.engine.reg i) j w) } := by
  obtain ⟨hoff, hal⟩ := operandOffset_inWindow i j h64
  rw [step_w32 s rest (operandOffset i j) hoff hal w h, operandOffset, slotAt_operand s.cfg i j hj h64, writeSlot, hb]
  rfl

/-- The writes of some limbs of v, one step each: the register takes each in turn. -/
theorem run_w32_limbs {s : State} (i : RegIdx) (v : Nat) (js : List Nat) (rest : List Arrival)
    (hb : s.engine.BUSY = false) (hjs : ∀ j ∈ js, j < s.cfg.nl ∧ j < 64)
    (h : s.inbox = (js.map fun j => w32 s.cfg (operandOffset i j) (limb v j)) ++ rest) :
    run js.length s = .next ({ s with
      inbox := rest,
      engine := s.engine.setReg i (js.foldl (fun x j => setLimb x j (limb v j)) (s.engine.reg i)) } : State) := by
  induction js generalizing s with
  | nil =>
    have hrest : s.inbox = rest := h
    rw [List.foldl_nil, Engine.setReg_reg_self, ← hrest]
    rfl
  | cons j js ih =>
    obtain ⟨hj, h64⟩ := hjs j List.mem_cons_self
    have hstep := step_w32_limb hb hj h64 (rest := (js.map fun j => w32 s.cfg (operandOffset i j) (limb v j)) ++ rest) h
    have htail := ih (s := { s with
        inbox := (js.map fun j => w32 s.cfg (operandOffset i j) (limb v j)) ++ rest,
        engine := s.engine.setReg i (setLimb (s.engine.reg i) j (limb v j)) })
      hb (fun k hk => hjs k (List.mem_cons_of_mem j hk)) rfl
    rw [List.length_cons, run_succ js.length s _ hstep, htail, List.foldl_cons, Engine.reg_setReg_same,
      Engine.setReg_setReg]

/-- Settles O49: the limbs written are all of the register (R10). -/
theorem loadWritesTheWholeOperand : Obligations.LoadWritesTheWholeOperand := by
  intro s rest i v hs hb hv h
  have hrun := run_w32_limbs i v (List.range s.cfg.nl) rest hb
    (fun j hj => ⟨List.mem_range.mp hj, (List.mem_range.mp hj).trans_le (nl_le s.cfg hs.cfg_valid)⟩) h
  have hlt (x : Nat) (hx : x < s.cfg.radix) : x < 2 ^ (32 * s.cfg.nl) := opw_eq s.cfg hs.cfg_valid ▸ hx
  rw [List.length_range, foldl_setLimb_eq s.cfg.nl (hlt _ (hs.regs_lt i)) (hlt v hv)] at hrun
  exact hrun

end Sys2Proof.Machine

namespace Sys2Proof.Machine

/-! ### The Barrett datapath (R112) -/

section barrett
variable {opw x m : Nat}

/-- The quotient estimate is no larger than the quotient: what it takes off is at most x. -/
theorem barrettQuotient_mul_le (opw x m : Nat) : x * barrettMu opw m / 2 ^ (2 * opw) * m ≤ x := by
  refine Nat.le_of_mul_le_mul_right ?_ (Nat.two_pow_pos (2 * opw))
  calc x * barrettMu opw m / 2 ^ (2 * opw) * m * 2 ^ (2 * opw)
      = x * barrettMu opw m / 2 ^ (2 * opw) * 2 ^ (2 * opw) * m := by ring
    _ ≤ x * barrettMu opw m * m := Nat.mul_le_mul_right m (Nat.div_mul_le_self _ _)
    _ = x * (2 ^ (2 * opw) / m * m) := by rw [barrettMu, mul_assoc]
    _ ≤ x * 2 ^ (2 * opw) := Nat.mul_le_mul_left x (Nat.div_mul_le_self _ _)

/-- The estimate misses the quotient by less than 2: each of its two roundings costs less than 1. -/
theorem lt_barrettQuotient_add_two_mul (hm : 0 < m) (hx : x ≤ 2 ^ (2 * opw)) :
    x < (x * barrettMu opw m / 2 ^ (2 * opw) + 2) * m := by
  have hmu : 2 ^ (2 * opw) < (barrettMu opw m + 1) * m := by
    rw [barrettMu, mul_comm (_ + 1) m]
    exact Nat.lt_mul_div_succ _ hm
  have hq : x * barrettMu opw m < (x * barrettMu opw m / 2 ^ (2 * opw) + 1) * 2 ^ (2 * opw) := by
    rw [mul_comm _ (2 ^ (2 * opw))]
    exact Nat.lt_mul_div_succ _ (Nat.two_pow_pos _)
  refine Nat.lt_of_mul_lt_mul_right (a := 2 ^ (2 * opw)) ?_
  calc x * 2 ^ (2 * opw)
      ≤ x * ((barrettMu opw m + 1) * m) := Nat.mul_le_mul_left x hmu.le
    _ = (x * barrettMu opw m + x) * m := by ring
    _ < ((x * barrettMu opw m / 2 ^ (2 * opw) + 1) * 2 ^ (2 * opw) + 2 ^ (2 * opw)) * m :=
        Nat.mul_lt_mul_of_pos_right (Nat.add_lt_add_of_lt_of_le hq hx) hm
    _ = (x * barrettMu opw m / 2 ^ (2 * opw) + 2) * m * 2 ^ (2 * opw) := by ring

theorem barrettRemainder_lt (hm : 0 < m) (hx : x ≤ 2 ^ (2 * opw)) : barrettRemainder opw x m < 2 * m := by
  have hle := barrettQuotient_mul_le opw x m
  have hlt := lt_barrettQuotient_add_two_mul (opw := opw) hm hx
  rw [Nat.add_mul] at hlt
  unfold barrettRemainder
  omega

theorem barrettRemainder_mod (opw x m : Nat) : barrettRemainder opw x m % m = x % m := by
  have hle := barrettQuotient_mul_le opw x m
  rw [Nat.mul_comm] at hle
  rw [barrettRemainder, Nat.mul_comm, Nat.sub_mul_mod hle]

/-- A value below 2m is reduced modulo m by at most one subtraction. -/
theorem sub_if_le_eq_mod {r m : Nat} (h : r < 2 * m) : (if m ≤ r then r - m else r) = r % m := by
  split
  next hle => rw [Nat.mod_eq_sub_mod hle, Nat.mod_eq_of_lt (by omega)]
  next hlt => exact (Nat.mod_eq_of_lt (by omega)).symm

/-- The Barrett datapath reduces every double-width value. -/
theorem barrettDatapath_eq_mod (hm : 0 < m) (hx : x ≤ 2 ^ (2 * opw)) : barrettDatapath opw x m = x % m := by
  rw [← barrettRemainder_mod opw x m]
  exact sub_if_le_eq_mod (barrettRemainder_lt hm hx)

/-- A product of two operands is double-width. -/
theorem mul_le_two_pow {y : Nat} (hx : x ≤ 2 ^ opw) (hy : y ≤ 2 ^ opw) : x * y ≤ 2 ^ (2 * opw) := by
  rw [two_mul, pow_add]
  exact Nat.mul_le_mul hx hy

end barrett

/-- Settles O16, with the dividend of R113 below 2^(2·OPW). -/
theorem barrettDatapathIsBarrett : Obligations.BarrettDatapathIsBarrett := by
  intro s rd rs1 rs2 rs3 hm _ hhi hlo
  have hpos : 0 < s.engine.reg rs3 := Nat.pos_of_ne_zero hm
  have hx : s.engine.reg rs1 * 2 ^ s.cfg.opw + s.engine.reg rs2 ≤ 2 ^ (2 * s.cfg.opw) := by
    calc s.engine.reg rs1 * 2 ^ s.cfg.opw + s.engine.reg rs2
        ≤ (s.engine.reg rs1 + 1) * 2 ^ s.cfg.opw := by rw [Nat.add_mul, Nat.one_mul]; omega
      _ ≤ 2 ^ (2 * s.cfg.opw) := mul_le_two_pow hhi le_rfl
  refine ⟨barrettRemainder_lt hpos hx, ?_⟩
  rw [barrettDatapath_eq_mod hpos hx]
  exact barrettResult s rd rs1 rs2 rs3 hm

/-! ### The word-serial Montgomery product (R109) -/

section montgomery
variable {a b m m' T ai n : Nat}

/-- `m' = −inv(m mod 2^32, 2^32) mod 2^32`, the constant of the loop (R109). -/
def montConstant (m : Nat) : Nat := (2 ^ 32 - inv (m % 2 ^ 32) (2 ^ 32)) % 2 ^ 32

theorem montLoop_eq (nl a b m : Nat) :
    montLoop nl a b m =
      if m ≤ (limbsOf nl a).foldl (montRound b m (montConstant m)) 0 then
        (limbsOf nl a).foldl (montRound b m (montConstant m)) 0 - m
      else (limbsOf nl a).foldl (montRound b m (montConstant m)) 0 := rfl

/-- `m·m' = −1` modulo 2^32. -/
theorem dvd_one_add_mul_montConstant (hodd : m % 2 = 1) : 2 ^ 32 ∣ 1 + m * montConstant m := by
  have hgcd : Nat.gcd (m % 2 ^ 32) (2 ^ 32) = 1 := by
    rw [← Nat.gcd_rec]
    exact Nat.Coprime.pow_left 32 (Nat.coprime_two_left.mpr (Nat.odd_iff.mpr hodd))
  have hinv : m * inv (m % 2 ^ 32) (2 ^ 32) ≡ 1 [MOD 2 ^ 32] :=
    ((Nat.mod_modEq m (2 ^ 32)).symm.mul_right _).trans (mul_inv_mod _ _ (by omega) hgcd)
  have hlt := inv_lt (m % 2 ^ 32) (2 ^ 32) (by omega)
  refine (Nat.modEq_zero_iff_dvd).mp ?_
  calc 1 + m * montConstant m
      ≡ m * inv (m % 2 ^ 32) (2 ^ 32) + m * (2 ^ 32 - inv (m % 2 ^ 32) (2 ^ 32)) [MOD 2 ^ 32] :=
        hinv.symm.add ((Nat.mod_modEq _ _).mul_left m)
    _ = m * 2 ^ 32 := by rw [← Nat.mul_add, Nat.add_sub_cancel' hlt.le]
    _ ≡ 0 [MOD 2 ^ 32] := Nat.modEq_zero_iff_dvd.mpr (Nat.dvd_mul_left _ _)

/-- One round divides by 2^32 modulo m: the multiple of m that it adds makes the division exact. -/
theorem mul_montRound (hm' : 2 ^ 32 ∣ 1 + m * m') : 2 ^ 32 * montRound b m m' T ai ≡ T + ai * b [MOD m] := by
  have hdvd : 2 ^ 32 ∣ T + ai * b + (T + ai * b) % 2 ^ 32 * m' % 2 ^ 32 * m := by
    refine (Nat.modEq_zero_iff_dvd).mp ?_
    calc T + ai * b + (T + ai * b) % 2 ^ 32 * m' % 2 ^ 32 * m
        ≡ T + ai * b + (T + ai * b) * m' * m [MOD 2 ^ 32] :=
          (((Nat.mod_modEq _ _).trans ((Nat.mod_modEq _ _).mul_right m')).mul_right m).add_left _
      _ = (T + ai * b) * (1 + m * m') := by ring
      _ ≡ 0 [MOD 2 ^ 32] := Nat.modEq_zero_iff_dvd.mpr (hm'.mul_left _)
  rw [montRound, Nat.mul_div_cancel' hdvd]
  exact Nat.add_mul_mod_self_right _ _ m

/-- The accumulator stays below 2m. -/
theorem montRound_lt (hb : b < m) (hT : T < 2 * m) (hai : ai < 2 ^ 32) : montRound b m m' T ai < 2 * m := by
  have hu : (T + ai * b) % 2 ^ 32 * m' % 2 ^ 32 < 2 ^ 32 := Nat.mod_lt _ (Nat.two_pow_pos 32)
  rw [montRound, Nat.div_lt_iff_lt_mul (Nat.two_pow_pos 32)]
  generalize (T + ai * b) % 2 ^ 32 * m' % 2 ^ 32 = u at hu ⊢
  have hab : ai * b ≤ (2 ^ 32 - 1) * m := Nat.mul_le_mul (by omega) hb.le
  have hum : u * m ≤ (2 ^ 32 - 1) * m := Nat.mul_le_mul_right m (by omega)
  omega

/-- After n rounds the accumulator is the product with the low n limbs of a, divided by 2^(32n), modulo m. -/
theorem foldl_montRound (hm' : 2 ^ 32 ∣ 1 + m * m') (hb : b < m) (n : Nat) :
    (limbsOf n a).foldl (montRound b m m') 0 < 2 * m ∧
      2 ^ (32 * n) * (limbsOf n a).foldl (montRound b m m') 0 ≡ a % 2 ^ (32 * n) * b [MOD m] := by
  induction n with
  | zero => simp [limbsOf, Nat.mod_one, Nat.zero_lt_of_lt hb, Nat.ModEq]
  | succ n ih =>
    obtain ⟨hlt, hmod⟩ := ih
    have hlimbs : limbsOf (n + 1) a = limbsOf n a ++ [(limb a n).toNat] := by
      rw [limbsOf, List.range_succ, List.map_append]
      rfl
    rw [hlimbs, List.foldl_append, List.foldl_cons, List.foldl_nil]
    generalize (limbsOf n a).foldl (montRound b m m') 0 = T at hlt hmod ⊢
    refine ⟨montRound_lt hb hlt (limb a n).isLt, ?_⟩
    calc 2 ^ (32 * (n + 1)) * montRound b m m' T (limb a n).toNat
        = 2 ^ (32 * n) * (2 ^ 32 * montRound b m m' T (limb a n).toNat) := by rw [Nat.mul_succ, pow_add, mul_assoc]
      _ ≡ 2 ^ (32 * n) * (T + (limb a n).toNat * b) [MOD m] := (mul_montRound hm').mul_left _
      _ = 2 ^ (32 * n) * T + (limb a n).toNat * 2 ^ (32 * n) * b := by ring
      _ ≡ a % 2 ^ (32 * n) * b + (limb a n).toNat * 2 ^ (32 * n) * b [MOD m] := hmod.add_right _
      _ = a % 2 ^ (32 * (n + 1)) * b := by rw [mod_limb_succ, Nat.add_mul]

/-- The loop computes MONTMUL's value. -/
theorem montLoop_eq_montProduct {c : Config} (hc : c.Valid) (hodd : m % 2 = 1) (ha : a < c.radix) (hb : b < m) :
    montLoop c.nl a b m = montProduct c a b m := by
  obtain ⟨hlt, hmod⟩ := foldl_montRound (a := a) (dvd_one_add_mul_montConstant hodd) hb c.nl
  have hloop : montLoop c.nl a b m = (limbsOf c.nl a).foldl (montRound b m (montConstant m)) 0 % m :=
    (montLoop_eq c.nl a b m).trans (sub_if_le_eq_mod hlt)
  rw [← opw_eq c hc, Nat.mod_eq_of_lt (b := 2 ^ c.opw) ha] at hmod
  have hradix : c.radix * montLoop c.nl a b m ≡ c.radix * montProduct c a b m [MOD m] := by
    rw [hloop]
    exact (((Nat.mod_modEq _ m).mul_left c.radix).trans hmod).trans (radix_mul_montProduct c a b m hodd).symm
  have hpos : 0 < m := Nat.zero_lt_of_lt hb
  exact (Nat.ModEq.cancel_left_of_coprime (radix_coprime_of_odd c m hodd).symm hradix).eq_of_lt_of_lt
    (hloop ▸ Nat.mod_lt _ hpos) (montProduct_lt c a b m hpos)

end montgomery

/-- Settles O15: the loop computes MONTMUL's value. -/
theorem wordSerialMontgomeryIsMontmul : Obligations.WordSerialMontgomeryIsMontmul := by
  intro s rd rs1 rs2 rs3 hc hodd hm ha hb
  rw [montLoop_eq_montProduct hc hodd (ha.trans hm) hb]
  exact exec_montmul_eq_afterOk rd rs1 rs2 rs3 s hodd ha hb

/-! ### Square and multiply (R103) -/

/-- Square and multiply over a product that adds exponents: if `P n x` says that x stands for the n-th power, the ladder goes from
the power of the leading bits of e to that of e. -/
theorem ladder_represents {P : Nat → Nat → Prop} {mul : Nat → Nat → Nat} {base e : Nat}
    (hmul : ∀ {n n' x y}, P n x → P n' y → P (n + n') (mul x y)) (hbase : P 1 base) (k : Nat) {acc : Nat}
    (hacc : P (e / 2 ^ k) acc) : P e (ladder mul base e k acc) := by
  induction k generalizing acc with
  | zero => simpa [ladder] using hacc
  | succ k ih =>
    have hhalf : e / 2 ^ (k + 1) = e / 2 ^ k / 2 := by rw [pow_succ, Nat.div_div_eq_div_mul]
    have hsq := hmul hacc hacc
    rw [hhalf] at hsq
    refine ih ?_
    split
    next hbit =>
      have hsum : e / 2 ^ k = e / 2 ^ k / 2 + e / 2 ^ k / 2 + 1 := by omega
      rw [hsum]
      exact hmul hsq hbase
    next hbit =>
      have hsum : e / 2 ^ k = e / 2 ^ k / 2 + e / 2 ^ k / 2 := by omega
      rwa [hsum]

/-- From the 0-th power, over all the bits of e. -/
theorem ladder_represents_of_lt {P : Nat → Nat → Prop} {mul : Nat → Nat → Nat} {base e k one : Nat}
    (hmul : ∀ {n n' x y}, P n x → P n' y → P (n + n') (mul x y)) (hone : P 0 one) (hbase : P 1 base) (he : e < 2 ^ k) :
    P e (ladder mul base e k one) :=
  ladder_represents hmul hbase k (by rwa [Nat.div_eq_of_lt he])

section modexp
variable {c : Config} {a e m : Nat}

/-- The datapath for an even modulus. -/
theorem modexpDatapath_of_even (heven : m % 2 ≠ 1) (hm : 0 < m) (hmlt : m < c.radix) (ha : a < c.radix)
    (he : e < c.radix) : modexpDatapath c a e m = a ^ e % m := by
  have hreduce {x y : Nat} (hx : x < m) (hy : y < m) : barrettDatapath c.opw (x * y) m = x * y % m :=
    barrettDatapath_eq_mod hm (mul_le_two_pow (hx.trans hmlt).le (hy.trans hmlt).le)
  have hbase : barrettDatapath c.opw a m = a ^ 1 % m := by
    rw [pow_one]
    exact barrettDatapath_eq_mod hm (ha.le.trans (Nat.pow_le_pow_right two_pos (by omega)))
  rw [modexpDatapath, if_neg heven]
  refine ladder_represents_of_lt (P := fun n x => x = a ^ n % m) ?_ (by rw [pow_zero]) hbase he
  rintro n n' x y rfl rfl
  rw [hreduce (Nat.mod_lt _ hm) (Nat.mod_lt _ hm), ← Nat.mul_mod, pow_add]

/-- A residue stands for the n-th power of a in Montgomery form: it is `a^n * 2^OPW` modulo m. -/
structure MontForm (c : Config) (a m n x : Nat) : Prop where
  lt : x < m
  modEq : x ≡ a ^ n * c.radix [MOD m]

/-- The Montgomery product adds exponents. -/
theorem MontForm.mul {n n' x y : Nat} (hodd : m % 2 = 1) (hx : MontForm c a m n x) (hy : MontForm c a m n' y) :
    MontForm c a m (n + n') (montProduct c x y m) := by
  refine ⟨montProduct_lt c x y m (Nat.zero_lt_of_lt hx.lt),
    Nat.ModEq.cancel_left_of_coprime (radix_coprime_of_odd c m hodd).symm ?_⟩
  calc c.radix * montProduct c x y m ≡ x * y [MOD m] := radix_mul_montProduct c x y m hodd
    _ ≡ a ^ n * c.radix * (a ^ n' * c.radix) [MOD m] := hx.modEq.mul hy.modEq
    _ = c.radix * (a ^ (n + n') * c.radix) := by rw [pow_add]; ring

/-- A product with the square of the radix enters Montgomery form. -/
theorem montForm_enter (hodd : m % 2 = 1) {x r2 : Nat} (hx : x ≡ a [MOD m]) (hr2 : r2 ≡ c.radix * c.radix [MOD m]) :
    MontForm c a m 1 (montProduct c x r2 m) := by
  refine ⟨montProduct_lt c x r2 m (by omega), Nat.ModEq.cancel_left_of_coprime (radix_coprime_of_odd c m hodd).symm ?_⟩
  calc c.radix * montProduct c x r2 m ≡ x * r2 [MOD m] := radix_mul_montProduct c x r2 m hodd
    _ ≡ a * (c.radix * c.radix) [MOD m] := hx.mul hr2
    _ = c.radix * (a ^ 1 * c.radix) := by ring

/-- A product with 1 leaves it. -/
theorem MontForm.leave {n x : Nat} (hodd : m % 2 = 1) (hx : MontForm c a m n x) :
    montProduct c x (1 % m) m = a ^ n % m := by
  have hpos : 0 < m := Nat.zero_lt_of_lt hx.lt
  refine Nat.ModEq.eq_of_lt_of_lt ?_ (montProduct_lt c _ _ m hpos) (Nat.mod_lt _ hpos)
  refine Nat.ModEq.cancel_left_of_coprime (radix_coprime_of_odd c m hodd).symm ?_
  calc c.radix * montProduct c x (1 % m) m ≡ x * (1 % m) [MOD m] := radix_mul_montProduct c x _ m hodd
    _ ≡ a ^ n * c.radix * 1 [MOD m] := hx.modEq.mul (Nat.mod_modEq 1 m)
    _ = c.radix * a ^ n := by ring
    _ ≡ c.radix * (a ^ n % m) [MOD m] := (Nat.mod_modEq _ m).symm.mul_left _

/-- The datapath for an odd modulus. -/
theorem modexpDatapath_of_odd (hc : c.Valid) (hodd : m % 2 = 1) (hmlt : m < c.radix) (ha : a < c.radix)
    (he : e < c.radix) : modexpDatapath c a e m = a ^ e % m := by
  have hm : 0 < m := by omega
  have hwide : c.radix ≤ 2 ^ (2 * c.opw) := Nat.pow_le_pow_right two_pos (by omega)
  have hone : barrettDatapath c.opw c.radix m = c.radix % m := barrettDatapath_eq_mod hm hwide
  have hr2 : barrettDatapath c.opw (c.radix % m * (c.radix % m)) m = c.radix * c.radix % m := by
    have hlt : c.radix % m ≤ c.radix := Nat.mod_le _ _
    rw [barrettDatapath_eq_mod hm (mul_le_two_pow hlt hlt), ← Nat.mul_mod]
  have ha' : barrettDatapath c.opw a m = a % m := barrettDatapath_eq_mod hm (ha.le.trans hwide)
  have hloop {x y : Nat} (hx : x < m) (hy : y < m) : montLoop c.nl x y m = montProduct c x y m :=
    montLoop_eq_montProduct hc hodd (hx.trans hmlt) hy
  have hbase : MontForm c a m 1 (montLoop c.nl (a % m) (c.radix * c.radix % m) m) := by
    rw [hloop (Nat.mod_lt _ hm) (Nat.mod_lt _ hm)]
    exact montForm_enter hodd (Nat.mod_modEq a m) (Nat.mod_modEq _ m)
  have hladder : MontForm c a m e (ladder (fun x y => montLoop c.nl x y m)
      (montLoop c.nl (a % m) (c.radix * c.radix % m) m) e c.opw (c.radix % m)) := by
    refine ladder_represents_of_lt (fun {n n' x y} hx hy => ?_) ⟨Nat.mod_lt _ hm, ?_⟩ hbase he
    · rw [hloop hx.lt hy.lt]
      exact hx.mul hodd hy
    · rw [pow_zero, Nat.one_mul]
      exact Nat.mod_modEq _ m
  simp only [modexpDatapath, if_pos hodd, hone, hr2, ha']
  rw [hloop hladder.lt (Nat.mod_lt _ hm), hladder.leave hodd]

end modexp

/-- Settles O17, by the parity of the modulus. -/
theorem squareAndMultiplyIsModexp : Obligations.SquareAndMultiplyIsModexp := by
  intro s rd rs1 rs2 rs3 hc hm hmlt ha he
  have hvalue : modexpDatapath s.cfg (s.engine.reg rs1) (s.engine.reg rs2) (s.engine.reg rs3) =
      s.engine.reg rs1 ^ s.engine.reg rs2 % s.engine.reg rs3 := by
    by_cases hodd : s.engine.reg rs3 % 2 = 1
    · exact modexpDatapath_of_odd hc hodd hmlt ha he
    · exact modexpDatapath_of_even hodd (Nat.pos_of_ne_zero hm) hmlt ha he
  rw [hvalue]
  exact modexpResult s rd rs1 rs2 rs3 hm

end Sys2Proof.Machine
end
